-- ==== Sys2Proof/Word.lean ====
section
/-! DEFINITION. The bit-vector types of the block (00_scope.md R6, R9). -/

namespace Sys2Proof

/-- An input word, `WORD_W` = 20 bits (00_scope.md R6, 30_encoding.md R71). -/
abbrev Word := BitVec 20

/-- A host address or a host data byte, `AW` = `BW` = 8 bits (00_scope.md R6). -/
abbrev Byte := BitVec 8

/-- A sample or a compare threshold, `SW` = `CW` = 16 bits (00_scope.md R6). -/
abbrev Half := BitVec 16

end Sys2Proof
end

