-- ==== Sys2Proof/Config.lean ====
section
/-! DEFINITION. The configuration record of 00_scope.md R6, the constraints of R7, the fixture FX of
R8, the configuration of the machine at reset, and the words its environment presents. -/

namespace Sys2Proof

/-- The build-time parameters of the block, "by the parameters below and by nothing else"
(00_scope.md R6). -/
structure Config where
  /-- `N`, the table length. -/
  n : Nat
  /-- `REF[0 .. N-1]`, index 0 first. -/
  ref : List Nat
  /-- `DEAD_SUB`. -/
  deadSub : Nat
  /-- `DEAD_ADD`. -/
  deadAdd : Nat
  /-- `MIN_PULSE`. -/
  minPulse : Nat
  /-- `BASE_RATE`, the constant of the divider formula (42_overflow_divider.md R130). -/
  baseRate : Rat
  /-- `MIN_FREQ`, Hz. -/
  minFreq : Nat
  /-- `MAX_FREQ`, Hz. -/
  maxFreq : Nat
  /-- `MIN_AMP`. -/
  minAmp : Rat
  /-- `MAX_AMP`. -/
  maxAmp : Rat
  /-- `V_PER_HZ`. -/
  vPerHz : Rat
  /-- `BUS_VOLTAGE`. -/
  busVoltage : Rat
  /-- `T_SETTLE`: timing only, no rule depends on it (00_scope.md R6, 93_implementation_defined.md U13). -/
  tSettle : Rat
deriving DecidableEq, Repr

namespace Config

/-- `REF[i]` (10_state.md R30). -/
def refAt (c : Config) (i : Nat) : Nat := c.ref.getD i 0

/-- `IW = ceil(log2(N+1))`, the width of a phase index (00_scope.md R6). -/
def iw (c : Config) : Nat := Nat.clog 2 (c.n + 1)

/-- Items 1 to 3 of 00_scope.md R7: the constraints on the parameters the block itself uses. -/
abbrev BlockLegal (c : Config) : Prop :=
  (3 ≤ c.n ∧ c.n ≤ 32) ∧ (c.ref.length = c.n ∧ ∀ x ∈ c.ref, x ≤ 32767) ∧
    c.deadSub ≤ 32767 ∧ c.deadAdd ≤ 32768 ∧ c.minPulse ≤ 32767

/-- Items 4 to 7 of 00_scope.md R7: the constraints on the parameters of `SETFREQ`. -/
abbrev HostLegal (c : Config) : Prop :=
  (0 < c.minFreq ∧ c.minFreq ≤ c.maxFreq) ∧ 1 ≤ (c.baseRate / c.maxFreq).floor ∧
    (c.baseRate / c.minFreq).floor ≤ 255 ∧
    (0 < c.minAmp ∧ c.minAmp ≤ c.maxAmp) ∧ 0 < c.vPerHz ∧ 0 < c.busVoltage

/-- Item 8 of 00_scope.md R7: the consistency condition on D0's minimum-frequency scenario. -/
abbrev MinFreqAtMinAmp (c : Config) : Prop := c.minFreq * c.vPerHz / c.busVoltage ≤ c.minAmp

/-- Every constraint of 00_scope.md R7: "Constraints every legal parameter assignment meets". -/
abbrev Legal (c : Config) : Prop := c.BlockLegal ∧ c.HostLegal ∧ c.MinFreqAtMinAmp

/-- The fixture parameter set FX (00_scope.md R8): for tests, "not the hardware's configuration".
FX has no value for `T_SETTLE`, which nothing reads; it stands as 0. -/
def fixture : Config where
  n := 15
  ref := [0, 5, 9, 10, 25, 104, 105, 250, 500, 1000, 999, 640, 333, 127, 15]
  deadSub := 4
  deadAdd := 8
  minPulse := 6
  baseRate := 3000
  minFreq := 20
  maxFreq := 300
  minAmp := 1 / 10
  maxAmp := 1
  vPerHz := 1
  busVoltage := 250
  tSettle := 0

/-- Free value of the OPEN parameter `REF[i]` (log entry 2). -/
opaque openRef : Nat → Nat
/-- Free value of the OPEN parameter `DEAD_SUB` (log entry 2). -/
opaque openDeadSub : Nat
/-- Free value of the OPEN parameter `DEAD_ADD` (log entry 2). -/
opaque openDeadAdd : Nat
/-- Free value of the OPEN parameter `MIN_PULSE` (log entry 2). -/
opaque openMinPulse : Nat
/-- Free value of the OPEN parameter `BASE_RATE` (log entry 2). -/
opaque openBaseRate : Rat
/-- Free value of the OPEN parameter `MAX_FREQ` (log entry 2). -/
opaque openMaxFreq : Nat
/-- Free value of the OPEN parameter `V_PER_HZ` (log entry 2). -/
opaque openVPerHz : Rat
/-- Free value of the OPEN parameter `BUS_VOLTAGE` (log entry 2). -/
opaque openBusVoltage : Rat
/-- Free value of the OPEN parameter `T_SETTLE` (log entry 2). -/
opaque openTSettle : Rat

/-- The values D0 gives (00_scope.md R6, 92_eei_decisions.md D22) with a free value for every OPEN
parameter. -/
def candidate : Config where
  n := 15
  ref := (List.range 15).map openRef
  deadSub := openDeadSub
  deadAdd := openDeadAdd
  minPulse := openMinPulse
  baseRate := openBaseRate
  minFreq := 20
  maxFreq := openMaxFreq
  minAmp := 1 / 10
  maxAmp := 1
  vPerHz := openVPerHz
  busVoltage := openBusVoltage
  tSettle := openTSettle

/-- DESIGN CHOICE (log entry 2): the configuration of the machine at reset. It is `candidate`, every
OPEN parameter free, wherever that assignment is legal; an assignment that breaks 00_scope.md R7 "is
outside this spec" and is replaced as a whole, so that the machine's configuration is always legal.
Every legal assignment with D0's values is a `candidate` that stands. -/
def machine : Config :=
  { if candidate.Legal then candidate else fixture with n := 15 }

/-- Free value: the word the environment presents at the `k`-th step that finds no queued word
(30_encoding.md R70: "The environment presents one word per step"; log entry 1). -/
opaque envWord : Nat → Word

end Config

end Sys2Proof
end

