-- ==== Sys2Proof/Machine/Types.lean ====
section
/-! DEFINITION. The small types of the state and the initial phase indices (10_state.md R23, R24,
R27, R28). -/

namespace Sys2Proof.Machine

/-- The drive state. Three-valued, as 10_state.md R23 asks: "a model should make `STATE` a
three-constructor type and encode it only where `RD.STATUS` reads it" (log entry 8). -/
inductive Drive where
  /-- 0. -/
  | uninitialized
  /-- 1. -/
  | disabled
  /-- 2. -/
  | running
deriving DecidableEq, Repr

/-- The rotation direction `DIR` (10_state.md R24). -/
inductive Dir where
  /-- 0. -/
  | forward
  /-- 1. -/
  | reverse
deriving DecidableEq, Repr

/-- `DIR xor 1`. -/
def Dir.flip : Dir → Dir
  | .forward => .reverse
  | .reverse => .forward

/-- One value for each phase 0, 1, 2 (00_scope.md R13 "phase k"). -/
structure PerPhase (α : Type) where
  ph0 : α
  ph1 : α
  ph2 : α
deriving DecidableEq, Repr

/-- The same value for each phase. -/
def PerPhase.const {α : Type} (v : α) : PerPhase α := ⟨v, v, v⟩

/-- One function applied to each phase: `for k in 0..2`. -/
def PerPhase.map {α β : Type} (f : α → β) (x : PerPhase α) : PerPhase β :=
  ⟨f x.ph0, f x.ph1, f x.ph2⟩

/-- A test that holds of each phase. -/
def PerPhase.all {α : Type} (f : α → Bool) (x : PerPhase α) : Bool :=
  f x.ph0 && f x.ph1 && f x.ph2

/-- The value of phase `p`; none for `p = 3`, "which does not exist" (10_state.md R35). -/
def PerPhase.at? {α : Type} (x : PerPhase α) (p : BitVec 2) : Option α :=
  match p.toNat with
  | 0 => some x.ph0
  | 1 => some x.ph1
  | 2 => some x.ph2
  | _ => none

/-- `(IDX[1], IDX[2]) <- (IDX[2], IDX[1])` (45_drive_state_machine.md R164 line 2). -/
def PerPhase.swap12 {α : Type} (x : PerPhase α) : PerPhase α := ⟨x.ph0, x.ph2, x.ph1⟩

/-- `INIT_IDX(dir)` for table length `n` (10_state.md R28). -/
def initIdx (n : Nat) : Dir → PerPhase Nat
  | .forward => ⟨0, n / 3, 2 * n / 3⟩
  | .reverse => ⟨0, 2 * n / 3, n / 3⟩

end Sys2Proof.Machine
end

