-- ==== Sys2Proof/Machine/State.lean ====
section
/-! DEFINITION. The state of the machine (10_state.md R22), its reset value (70_reset_and_hazards.md
R200, R202), and the reasons a step can stop. -/

namespace Sys2Proof.Machine

/-- The bytes the host can write, each at its host address (10_state.md R35: `TBL[j]` at `0x40 + j`),
in one canonical form: addresses rise strictly and no entry is `0x00`, the value of an unlisted
address (log entry 9). -/
abbrev Memory := List Host.Cell

/-- Why a step stops with a fault. -/
inductive Fault where
  /-- A tick found a phase index above `N`. Raised by `tick` only, and so by `OVF` only. No reachable
  state has such an index; "The spec gives that no meaning: a model should carry IDX[k] <= N as an
  invariant of its state type or treat a violation as a fault" (44_phase_index_tracker.md R154).
  Safe (log entry 3). -/
  | indexAboveN
deriving DecidableEq, Repr

/-- Why a step is refused. -/
inductive Refusal where
  /-- The instruction has no meaning in this model. Raised by a refused arm of `exec` only; every
  instruction has a meaning, so nothing raises it. Safe. -/
  | notModelled (mnemonic : String)
deriving DecidableEq, Repr

/-- The block with its configuration, the output record of its last step and what its environment
presents. -/
structure State where
  /-- The parameters of 00_scope.md R6; no operation writes them (10_state.md R39, log entry 2). -/
  cfg : Config
  /-- `STATE` (10_state.md R23). -/
  drive : Drive
  /-- `DIR` (10_state.md R24). -/
  dir : Dir
  /-- `DIVTGT` (10_state.md R25). -/
  divtgt : Byte
  /-- `CNT` (10_state.md R26). -/
  cnt : Byte
  /-- `IDX[0..2]` (10_state.md R27). -/
  idx : PerPhase Nat
  /-- `TBL[0 .. 2N-1]` (10_state.md R29). -/
  mem : Memory
  /-- `RISE[0..2]` (10_state.md R31). -/
  rise : PerPhase Half
  /-- `FALL[0..2]` (10_state.md R31). -/
  fall : PerPhase Half
  /-- `RDATA` of the last step (10_state.md R34, log entry 5). -/
  rdata : Byte
  /-- `CMP_STB` of the last step (10_state.md R34, log entry 5). -/
  cmpStb : Bool
  /-- The model's own: the words the environment presents next, first one first (log entry 1). -/
  input : List Word
  /-- The model's own: how many free words have been drawn (log entry 1). -/
  envPos : Nat
deriving DecidableEq, Repr

/-- The machine of configuration `c` right after reset: `ResetState` of 70_reset_and_hazards.md R200,
its output record, and no queued word (log entry 1). -/
def State.resetWith (c : Config) : State where
  cfg := c
  drive := .uninitialized
  dir := .forward
  divtgt := 0xFF
  cnt := 0x00
  idx := initIdx c.n .forward
  mem := []
  rise := PerPhase.const 0
  fall := PerPhase.const 0
  rdata := 0x00
  cmpStb := false
  input := []
  envPos := 0

/-- The machine right after reset (70_reset_and_hazards.md R200, R202). -/
def State.reset : State := State.resetWith Config.machine

end Sys2Proof.Machine
end

