-- ==== Sys2Proof/Machine/Fetch.lean ====
section
/-! DEFINITION. The word the environment presents to a step (30_encoding.md R70, log entry 1). -/

namespace Sys2Proof.Machine

/-- The word of this step: the first queued word, or a free word where none is queued. -/
def inputWord (s : State) : Word :=
  match s.input with
  | w :: _ => w
  | [] => Config.envWord s.envPos

/-- The state once the word of this step is taken. -/
def takeWord (s : State) : State :=
  match s.input with
  | _ :: ws => { s with input := ws }
  | [] => { s with envPos := s.envPos + 1 }

/-- The state with `w` as the next word, before any queued word. -/
def presentWord (s : State) (w : Word) : State := { s with input := w :: s.input }

end Sys2Proof.Machine
end

