-- ==== Sys2Proof/Syntax.lean ====
section
/-! DEFINITION. The operations of the block, one constructor per row of 30_encoding.md R76. What
plays the part of an instruction is an operation: the effect of one slot of a word (00_scope.md R2). -/

namespace Sys2Proof

/-- The operations (30_encoding.md R76). Operands are those of R75: `d` a data byte, `i` a table index,
`p` a phase, `a` an address. -/
inductive Instr where
  | rst
  | ovf
  | onop
  | hnop
  | cmdInit
  | cmdEnable
  | cmdDisable
  | cmdReverse
  | wrDivtgt (d : Byte)
  | wrScaledl (i : BitVec 5) (d : Byte)
  | wrScaledh (i : BitVec 5) (d : Byte)
  | rdStatus
  | rdDivtgt
  | rdCnt
  | rdIdx0
  | rdIdx120
  | rdIdx240
  | rdRisel (p : BitVec 2)
  | rdRiseh (p : BitVec 2)
  | rdFalll (p : BitVec 2)
  | rdFallh (p : BitVec 2)
  | rdScaledl (i : BitVec 5)
  | rdScaledh (i : BitVec 5)
  | rdRefl (i : BitVec 5)
  | rdRefh (i : BitVec 5)
  | hRsvdw (a d : Byte)
  | hRsvdr (a : Byte)
deriving DecidableEq, Repr

/-- The column "Slot" of 30_encoding.md R76; `reset` stands for its "-". -/
inductive Slot where
  | reset
  | event
  | host
deriving DecidableEq, Repr

/-- The slot an operation belongs to (30_encoding.md R76). -/
def Instr.slot : Instr → Slot
  | .rst => .reset
  | .ovf => .event
  | .onop => .event
  | .hnop => .host
  | .cmdInit => .host
  | .cmdEnable => .host
  | .cmdDisable => .host
  | .cmdReverse => .host
  | .wrDivtgt _ => .host
  | .wrScaledl _ _ => .host
  | .wrScaledh _ _ => .host
  | .rdStatus => .host
  | .rdDivtgt => .host
  | .rdCnt => .host
  | .rdIdx0 => .host
  | .rdIdx120 => .host
  | .rdIdx240 => .host
  | .rdRisel _ => .host
  | .rdRiseh _ => .host
  | .rdFalll _ => .host
  | .rdFallh _ => .host
  | .rdScaledl _ => .host
  | .rdScaledh _ => .host
  | .rdRefl _ => .host
  | .rdRefh _ => .host
  | .hRsvdw _ _ => .host
  | .hRsvdr _ => .host

end Sys2Proof
end

