-- ==== Sys2Proof/WellFormed.lean ====
section
/-! DEFINITION. The conditions on operands of 30_encoding.md R75 and R76, for a table length `n`. -/

namespace Sys2Proof

/-- The addresses 40_host_access.md R108 lists: those 10_state.md R35 does not mark readable. -/
def reservedRead (n : Nat) (a : Byte) : Bool :=
  a.toNat == 0x00 || (decide (0x07 ≤ a.toNat) && decide (a.toNat ≤ 0x0F)) ||
    (decide (0x1C ≤ a.toNat) && decide (a.toNat ≤ 0x3F)) ||
    (decide (0x40 + 2 * n ≤ a.toNat) && decide (a.toNat ≤ 0x7F)) ||
    decide (0x80 + 2 * n ≤ a.toNat)

/-- The command codes of 45_drive_state_machine.md R160. -/
def isCommand (d : Byte) : Bool := d == 0x01 || d == 0x02 || d == 0x03 || d == 0x04

/-- The writes of no other row: everything except `0x02`, the scaled table (40_host_access.md R109)
and, at `0x00`, the four command codes (45_drive_state_machine.md R165). -/
def reservedWrite (n : Nat) (a d : Byte) : Bool :=
  !(a.toNat == 0x02) && !(decide (0x40 ≤ a.toNat) && decide (a.toNat < 0x40 + 2 * n)) &&
    !(a.toNat == 0x00 && isCommand d)

/-- The conditions of 30_encoding.md R76: a table index is below `N`, a phase below 3, and the two
catch-all rows hold only accesses of no other row. -/
def Instr.wellFormed (n : Nat) : Instr → Bool
  | .rst => true
  | .ovf => true
  | .onop => true
  | .hnop => true
  | .cmdInit => true
  | .cmdEnable => true
  | .cmdDisable => true
  | .cmdReverse => true
  | .wrDivtgt _ => true
  | .wrScaledl i _ => decide (i.toNat < n)
  | .wrScaledh i _ => decide (i.toNat < n)
  | .rdStatus => true
  | .rdDivtgt => true
  | .rdCnt => true
  | .rdIdx0 => true
  | .rdIdx120 => true
  | .rdIdx240 => true
  | .rdRisel p => decide (p.toNat < 3)
  | .rdRiseh p => decide (p.toNat < 3)
  | .rdFalll p => decide (p.toNat < 3)
  | .rdFallh p => decide (p.toNat < 3)
  | .rdScaledl i => decide (i.toNat < n)
  | .rdScaledh i => decide (i.toNat < n)
  | .rdRefl i => decide (i.toNat < n)
  | .rdRefh i => decide (i.toNat < n)
  | .hRsvdw a d => reservedWrite n a d
  | .hRsvdr a => reservedRead n a

end Sys2Proof
end

