-- ==== Sys2Proof/Decode.lean ====
section
/-! DEFINITION. The decoder of 30_encoding.md R71 to R77 and the encoder of R80, with the masks of
R76. -/

namespace Sys2Proof

/-! ### The fields of a word (30_encoding.md R71) -/

/-- `RST`, bit 19. -/
def wordRst (w : Word) : Bool := w.getLsbD 19
/-- `OVF`, bit 18. -/
def wordOvf (w : Word) : Bool := w.getLsbD 18
/-- `HV`, bit 17. -/
def wordHv (w : Word) : Bool := w.getLsbD 17
/-- `WE`, bit 16. -/
def wordWe (w : Word) : Bool := w.getLsbD 16
/-- `ADDR`, bits 15:8. -/
def wordAddr (w : Word) : Byte := w.extractLsb' 8 8
/-- `DATA`, bits 7:0. -/
def wordData (w : Word) : Byte := w.extractLsb' 0 8

/-! ### The operand fields of an address (30_encoding.md R75) -/

/-- The table index `ADDR[5:1]`. -/
def addrIndex (a : Byte) : BitVec 5 := a.extractLsb' 1 5
/-- The phase `ADDR[3:2]`. -/
def addrPhase (a : Byte) : BitVec 2 := a.extractLsb' 2 2
/-- The byte select `ADDR[0]`: true is the high byte. -/
def addrHigh (a : Byte) : Bool := a.getLsbD 0
/-- The threshold select `ADDR[1]`: true is `FALL`. -/
def addrFall (a : Byte) : Bool := a.getLsbD 1
/-- `ADDR[7:6]`, the window. -/
def addrWindow (a : Byte) : BitVec 2 := a.extractLsb' 6 2
/-- `ADDR[7:4]`. -/
def addrGroup (a : Byte) : BitVec 4 := a.extractLsb' 4 4

/-! ### Decoding -/

/-- The writes of 30_encoding.md R74. -/
def decodeWrite (n : Nat) (a d : Byte) : Instr :=
  if a = 0x00 then
    if d = 0x01 then .cmdInit
    else if d = 0x02 then .cmdEnable
    else if d = 0x03 then .cmdDisable
    else if d = 0x04 then .cmdReverse
    else .hRsvdw a d
  else if a = 0x02 then .wrDivtgt d
  else if addrWindow a = 0b01 ∧ (addrIndex a).toNat < n then
    if addrHigh a then .wrScaledh (addrIndex a) d else .wrScaledl (addrIndex a) d
  else .hRsvdw a d

/-- The reads of 30_encoding.md R74. -/
def decodeRead (n : Nat) (a : Byte) : Instr :=
  if a = 0x01 then .rdStatus
  else if a = 0x02 then .rdDivtgt
  else if a = 0x03 then .rdCnt
  else if a = 0x04 then .rdIdx0
  else if a = 0x05 then .rdIdx120
  else if a = 0x06 then .rdIdx240
  else if addrGroup a = 0b0001 ∧ (addrPhase a).toNat < 3 then
    match addrFall a, addrHigh a with
    | false, false => .rdRisel (addrPhase a)
    | false, true => .rdRiseh (addrPhase a)
    | true, false => .rdFalll (addrPhase a)
    | true, true => .rdFallh (addrPhase a)
  else if addrWindow a = 0b01 ∧ (addrIndex a).toNat < n then
    if addrHigh a then .rdScaledh (addrIndex a) else .rdScaledl (addrIndex a)
  else if addrWindow a = 0b10 ∧ (addrIndex a).toNat < n then
    if addrHigh a then .rdRefh (addrIndex a) else .rdRefl (addrIndex a)
  else .hRsvdr a

/-- The host slot of a word without `RST` (30_encoding.md R74). -/
def decodeHost (n : Nat) (w : Word) : Instr :=
  if wordHv w then
    if wordWe w then decodeWrite n (wordAddr w) (wordData w) else decodeRead n (wordAddr w)
  else .hnop

/-- The event slot of a word without `RST` (30_encoding.md R73). -/
def decodeEvent (w : Word) : Instr := if wordOvf w then .ovf else .onop

/-- The operations of a word in the order of 30_encoding.md R72: `RST` alone, or the event operation
and then the host operation. Total on the 2^20 words (R82). -/
def decodeOps (n : Nat) (w : Word) : List Instr :=
  if wordRst w then [.rst] else [decodeEvent w, decodeHost n w]

/-- Why a number is no input word. -/
inductive DecodeReject where
  /-- The number has a bit at or above 20: "Every word is 20 bits" (30_encoding.md R79). Raised by
  `decodeNumber` only, never by a step. Safe. -/
  | widerThanWord
deriving DecidableEq, Repr

/-- The decoder on any number: a number of more than 20 bits is rejected by name (log entry 14). -/
def decodeNumber (n v : Nat) : Except DecodeReject (List Instr) :=
  if v < 2 ^ 20 then .ok (decodeOps n (BitVec.ofNat 20 v)) else .error .widerThanWord

/-- DESIGN CHOICE (log entry 4): the one operation that a word shows, of the two it may hold: `RST`;
else the host operation where the host slot is occupied; else the event operation. -/
def shownOp : List Instr → Option Instr
  | [i] => some i
  | [e, .hnop] => some e
  | [_, h] => some h
  | _ => none

/-- The instruction the decoder reads from `nbits` bits of value `w`, at the table length of the
machine at reset. -/
def decodeTableWord (nbits w : Nat) : Option Instr :=
  match decodeNumber Config.machine.n (w % 2 ^ nbits) with
  | .ok ops => shownOp ops
  | .error _ => none

/-! ### Encoding -/

/-- The field `DATA` at bits 7:0. -/
def atData (d : Byte) : Word := d.setWidth 20
/-- The table index at bits 13:9, `i << 9` (30_encoding.md R80). -/
def atIndex (i : BitVec 5) : Word := i.setWidth 20 <<< 9
/-- The phase at bits 11:10, `p << 10` (30_encoding.md R80). -/
def atPhase (p : BitVec 2) : Word := p.setWidth 20 <<< 10
/-- The address at bits 15:8, `a << 8` (30_encoding.md R80). -/
def atAddr (a : Byte) : Word := a.setWidth 20 <<< 8

/-- The canonical word of one operation, its other slot empty (30_encoding.md R80). -/
def encode : Instr → Word
  | .rst => 0x80000
  | .ovf => 0x40000
  | .onop => 0x00000
  | .hnop => 0x00000
  | .cmdInit => 0x30001
  | .cmdEnable => 0x30002
  | .cmdDisable => 0x30003
  | .cmdReverse => 0x30004
  | .wrDivtgt d => 0x30200 ||| atData d
  | .wrScaledl i d => 0x34000 ||| atIndex i ||| atData d
  | .wrScaledh i d => 0x34100 ||| atIndex i ||| atData d
  | .rdStatus => 0x20100
  | .rdDivtgt => 0x20200
  | .rdCnt => 0x20300
  | .rdIdx0 => 0x20400
  | .rdIdx120 => 0x20500
  | .rdIdx240 => 0x20600
  | .rdRisel p => 0x21000 ||| atPhase p
  | .rdRiseh p => 0x21100 ||| atPhase p
  | .rdFalll p => 0x21200 ||| atPhase p
  | .rdFallh p => 0x21300 ||| atPhase p
  | .rdScaledl i => 0x24000 ||| atIndex i
  | .rdScaledh i => 0x24100 ||| atIndex i
  | .rdRefl i => 0x28000 ||| atIndex i
  | .rdRefh i => 0x28100 ||| atIndex i
  | .hRsvdw a d => 0x30000 ||| atAddr a ||| atData d
  | .hRsvdr a => 0x20000 ||| atAddr a

/-- `OVF || <host op>`: the word that holds an event operation and a host operation
(30_encoding.md R80). -/
def encodePair (e h : Instr) : Word := encode e ||| encode h

/-- The column `mask` of 30_encoding.md R76. -/
def Instr.rowMask : Instr → Word
  | .rst => 0x80000
  | .ovf => 0xC0000
  | .onop => 0xC0000
  | .hnop => 0xA0000
  | .cmdInit => 0xBFFFF
  | .cmdEnable => 0xBFFFF
  | .cmdDisable => 0xBFFFF
  | .cmdReverse => 0xBFFFF
  | .wrDivtgt _ => 0xBFF00
  | .wrScaledl _ _ => 0xBC100
  | .wrScaledh _ _ => 0xBC100
  | .rdStatus => 0xBFF00
  | .rdDivtgt => 0xBFF00
  | .rdCnt => 0xBFF00
  | .rdIdx0 => 0xBFF00
  | .rdIdx120 => 0xBFF00
  | .rdIdx240 => 0xBFF00
  | .rdRisel _ => 0xBF300
  | .rdRiseh _ => 0xBF300
  | .rdFalll _ => 0xBF300
  | .rdFallh _ => 0xBF300
  | .rdScaledl _ => 0xBC100
  | .rdScaledh _ => 0xBC100
  | .rdRefl _ => 0xBC100
  | .rdRefh _ => 0xBC100
  | .hRsvdw _ _ => 0xB0000
  | .hRsvdr _ => 0xB0000

/-- The column `match` of 30_encoding.md R76. -/
def Instr.rowMatch : Instr → Word
  | .rst => 0x80000
  | .ovf => 0x40000
  | .onop => 0x00000
  | .hnop => 0x00000
  | .cmdInit => 0x30001
  | .cmdEnable => 0x30002
  | .cmdDisable => 0x30003
  | .cmdReverse => 0x30004
  | .wrDivtgt _ => 0x30200
  | .wrScaledl _ _ => 0x34000
  | .wrScaledh _ _ => 0x34100
  | .rdStatus => 0x20100
  | .rdDivtgt => 0x20200
  | .rdCnt => 0x20300
  | .rdIdx0 => 0x20400
  | .rdIdx120 => 0x20500
  | .rdIdx240 => 0x20600
  | .rdRisel _ => 0x21000
  | .rdRiseh _ => 0x21100
  | .rdFalll _ => 0x21200
  | .rdFallh _ => 0x21300
  | .rdScaledl _ => 0x24000
  | .rdScaledh _ => 0x24100
  | .rdRefl _ => 0x28000
  | .rdRefh _ => 0x28100
  | .hRsvdw _ _ => 0x30000
  | .hRsvdr _ => 0x20000

/-- `w` has the fixed bits of the row of `i`: `(word & mask) = match` (30_encoding.md R76). -/
def Instr.matchesRow (i : Instr) (w : Word) : Bool := w &&& i.rowMask == i.rowMatch

end Sys2Proof
end

