-- ==== Sys2Proof/Machine/Flags.lean ====
section
/-! DEFINITION. The status outputs and the status byte, pure functions of `STATE` and `DIR`
(10_state.md R32, R33). -/

namespace Sys2Proof.Machine

/-- `TMR_RUN` (10_state.md R32). -/
def State.tmrRun (s : State) : Bool := s.drive == .running

/-- `IRQ_EN` (10_state.md R32). -/
def State.irqEn (s : State) : Bool := s.drive == .running

/-- `OUT_OFF` (10_state.md R32). -/
def State.outOff (s : State) : Bool := !(s.drive == .running)

/-- The encoding of `STATE` (10_state.md R23). -/
def driveCode : Drive → BitVec 2
  | .uninitialized => 0
  | .disabled => 1
  | .running => 2

/-- The encoding of `DIR` (10_state.md R24). -/
def dirCode : Dir → BitVec 1
  | .forward => 0
  | .reverse => 1

/-- `{ 0b00, IRQ_EN, TMR_RUN, OUT_OFF, DIR, STATE[1:0] }` (40_host_access.md R91, 10_state.md R33). -/
def State.statusByte (s : State) : Byte :=
  (0b00 : BitVec 2) ++ BitVec.ofBool s.irqEn ++ BitVec.ofBool s.tmrRun ++ BitVec.ofBool s.outOff ++
    dirCode s.dir ++ driveCode s.drive

end Sys2Proof.Machine
end

