-- ==== Sys2Proof/Machine/Operands.lean ====
section
/-! DEFINITION. Bytes and half-words, addresses of operands, and the bytes operands select
(20_memory.md R53, 30_encoding.md R75, 10_state.md R29, R30). -/

namespace Sys2Proof.Machine

/-! ### Bytes of a 16-bit field -/

/-- `v[7:0]`. -/
def lowByte (v : Half) : Byte := v.extractLsb' 0 8

/-- `v[15:8]`. -/
def highByte (v : Half) : Byte := v.extractLsb' 8 8

/-- `{hi, lo}`, the high byte in the high bits (00_scope.md R9). -/
def joinBytes (hi lo : Byte) : Half := hi ++ lo

/-- The byte a byte select names: true is the high byte (30_encoding.md R75). -/
def selectByte (v : Half) (high : Bool) : Byte := if high then highByte v else lowByte v

/-- `sext_16(v)` (00_scope.md R9). -/
def sext16 (v : Half) : Int := v.toInt

/-- `trunc_16(z)` (00_scope.md R9). -/
def trunc16 (z : Int) : Half := BitVec.ofInt 16 z

/-! ### Addresses (10_state.md R35) -/

/-- The host address of `TBL[j]`. -/
def tblAddr (j : Nat) : Nat := 0x40 + j

/-- The position in `TBL` of a byte of entry `i`: `2*i`, and `2*i + 1` for the high byte
(10_state.md R29). -/
def entryByte (i : Nat) (high : Bool) : Nat := if high then 2 * i + 1 else 2 * i

/-! ### Reads by operand -/

/-- `trunc_16(REF[i])` (40_host_access.md R103). -/
def refWord (c : Config) (i : Nat) : Half := BitVec.ofNat 16 (c.refAt i)

/-- A byte of the threshold of phase `p`; for `p = 3` the reserved read's `0x00`
(40_host_access.md R97, log entry 7). -/
def thresholdByte (x : PerPhase Half) (p : BitVec 2) (high : Bool) : Byte :=
  match x.at? p with
  | some v => selectByte v high
  | none => 0x00

/-- A byte of `REF[i]`; for `i >= N` the reserved read's `0x00` (40_host_access.md R103, log entry 7). -/
def refByte (s : State) (i : BitVec 5) (high : Bool) : Byte :=
  if i.toNat < s.cfg.n then selectByte (refWord s.cfg i.toNat) high else 0x00

end Sys2Proof.Machine
end

