-- ==== Sys2Proof/Machine/Ops.lean ====
section
/-! DEFINITION. The shared operations: memory, the scaled table, the dead-time function, the tick,
`Stop`, the reset of the block, the ends of host operations, and the access primitives of
20_memory.md R52. The block takes no exception and returns from none (60_exceptions.md R180, R186):
taking the overflow event is the operation `OVF` itself (R185). -/

namespace Sys2Proof.Machine

/-- The outcome of an operation. -/
abbrev Result := Host.Outcome State Fault Refusal

/-- Run `f` on the state `r` leaves; a stop stays. -/
def andThen (r : Result) (f : State → Result) : Result :=
  match r with
  | .next s => f s
  | .fault e => .fault e
  | .refused e => .refused e

/-! ### Memory -/

/-- The byte at address `a`; an unlisted address reads as `0x00`, its value after reset
(70_reset_and_hazards.md R200, log entry 9). -/
def Memory.read : Memory → Nat → Byte
  | [], _ => 0x00
  | (b, v) :: m, a => if a = b then v else Memory.read m a

/-- Write `v` at address `a`, keeping the canonical form: a `0x00` is not listed. -/
def Memory.write : Memory → Nat → Byte → Memory
  | [], a, v => if v = 0x00 then [] else [(a, v)]
  | (b, u) :: m, a, v =>
    if a < b then (if v = 0x00 then (b, u) :: m else (a, v) :: (b, u) :: m)
    else if a = b then (if v = 0x00 then m else (a, v) :: m)
    else (b, u) :: Memory.write m a v

/-- Every listed address is above `a`. -/
def Memory.above (a : Nat) (m : Memory) : Bool := m.all fun c => decide (a < c.1)

/-- The canonical form: addresses rise strictly and no entry is `0x00`. -/
def Memory.wf : Memory → Bool
  | [] => true
  | (a, v) :: m => !(v == 0x00) && Memory.above a m && Memory.wf m

/-- Every listed address lies in the scaled table of length `n`, `0x40 .. 0x40+2n-1`
(20_memory.md R50). -/
def Memory.inTable (n : Nat) (m : Memory) : Bool :=
  m.all fun c => decide (0x40 ≤ c.1) && decide (c.1 < 0x40 + 2 * n)

/-! ### The scaled table (10_state.md R29) -/

/-- `TBL[j]`. -/
def State.tbl (s : State) (j : Nat) : Byte := Memory.read s.mem (tblAddr j)

/-- `TBL[j] <- v`. -/
def State.setTbl (s : State) (j : Nat) (v : Byte) : State :=
  { s with mem := Memory.write s.mem (tblAddr j) v }

/-- `SCALED(i) = { TBL[2*i+1], TBL[2*i] }` (10_state.md R29). -/
def State.scaled (s : State) (i : Nat) : Half :=
  joinBytes (s.tbl (entryByte i true)) (s.tbl (entryByte i false))

/-- `sext_16(SCALED(i))`, the sample value (10_state.md R29). -/
def State.sample (s : State) (i : Nat) : Int := sext16 (s.scaled i)

/-- A byte of scaled entry `i`; for `i >= N` the reserved read's `0x00` (40_host_access.md R101,
log entry 7). -/
def scaledByte (s : State) (i : BitVec 5) (high : Bool) : Byte :=
  if i.toNat < s.cfg.n then s.tbl (entryByte i.toNat high) else 0x00

/-- Write a byte of scaled entry `i`; for `i >= N` the reserved write's nothing
(40_host_access.md R106, log entry 7). -/
def setScaledByte (s : State) (i : BitVec 5) (high : Bool) (d : Byte) : State :=
  if i.toNat < s.cfg.n then s.setTbl (entryByte i.toNat high) d else s

/-! ### The output driver (43_pwm_output_driver.md R140) -/

/-- The rising threshold: `0 if d < MIN_PULSE else d` with `d = s - DEAD_SUB`, in `Z`. -/
def deadTimeRising (c : Config) (v : Int) : Int :=
  if v - c.deadSub < c.minPulse then 0 else v - c.deadSub

/-- `DeadTime(s) = (rising, rising + DEAD_ADD)`. -/
def deadTime (c : Config) (v : Int) : Int × Int :=
  (deadTimeRising c v, deadTimeRising c v + c.deadAdd)

/-! ### The tick (44_phase_index_tracker.md R150) -/

/-- Line 1 of the tick for one index: "if IDX[k] = N then IDX[k] <- 0". -/
def wrapIndex (n i : Nat) : Nat := if i = n then 0 else i

/-- The index each phase reads with, after line 1 of the tick. -/
def useIdx (s : State) : PerPhase Nat := s.idx.map (wrapIndex s.cfg.n)

/-- The state after lines 2 to 4 of the tick: the samples read, the six thresholds written, the
indices incremented (44_phase_index_tracker.md R150, 43_pwm_output_driver.md R141). -/
def tickState (s : State) : State :=
  { s with
    rise := (useIdx s).map fun i => trunc16 (deadTime s.cfg (s.sample i)).1
    fall := (useIdx s).map fun i => trunc16 (deadTime s.cfg (s.sample i)).2
    idx := (useIdx s).map fun i => i + 1 }

/-- `Tick()` (44_phase_index_tracker.md R150). An index above `N` faults (R154, log entry 3). -/
def tick (s : State) : Result :=
  if (useIdx s).all (fun i => decide (i < s.cfg.n)) then .next (tickState s)
  else .fault .indexAboveN

/-! ### The drive state machine -/

/-- `Stop()` (45_drive_state_machine.md R170). -/
def stop (s : State) : State :=
  { s with
    drive := .disabled
    cnt := 0x00
    idx := initIdx s.cfg.n s.dir
    rise := PerPhase.const 0
    fall := PerPhase.const 0 }

/-- Lines 2 and 3 of `CMD.REVERSE` (45_drive_state_machine.md R164): the swap and the toggle. -/
def swapDirection (s : State) : State :=
  { s with idx := s.idx.swap12, dir := s.dir.flip }

/-- `ResetState` and the output record of `RST` (70_reset_and_hazards.md R200). The configuration and
the environment's words are not the block's state and stay (R202, log entry 6). -/
def resetBlock (s : State) : State :=
  { s with
    drive := .uninitialized
    dir := .forward
    divtgt := 0xFF
    cnt := 0x00
    idx := initIdx s.cfg.n .forward
    mem := []
    rise := PerPhase.const 0
    fall := PerPhase.const 0
    rdata := 0x00
    cmpStb := false }

/-! ### The ends of operations (40_host_access.md R90, 30_encoding.md R72) -/

/-- End of a host read: `RDATA <- b`, no other change. -/
def finishRead (s : State) (b : Byte) : Result := .next { s with rdata := b }

/-- End of a host operation that reads nothing: `RDATA = 0x00`. -/
def finishHost (s : State) : Result := .next { s with rdata := 0x00 }

/-- End of an event operation: `CMP_STB` is `b`. -/
def finishEvent (s : State) (b : Bool) : Result := .next { s with cmpStb := b }

/-! ### The access primitives (20_memory.md R52) over the register map (10_state.md R35) -/

/-- `MemRead(addr, 1)`: the byte 10_state.md R35 gives for the address in the current state. -/
def memRead (s : State) (addr : Byte) : Byte :=
  let a := addr.toNat
  if a = 0x01 then s.statusByte
  else if a = 0x02 then s.divtgt
  else if a = 0x03 then s.cnt
  else if a = 0x04 then BitVec.ofNat 8 s.idx.ph0
  else if a = 0x05 then BitVec.ofNat 8 s.idx.ph1
  else if a = 0x06 then BitVec.ofNat 8 s.idx.ph2
  else if a = 0x10 then lowByte s.rise.ph0
  else if a = 0x11 then highByte s.rise.ph0
  else if a = 0x12 then lowByte s.fall.ph0
  else if a = 0x13 then highByte s.fall.ph0
  else if a = 0x14 then lowByte s.rise.ph1
  else if a = 0x15 then highByte s.rise.ph1
  else if a = 0x16 then lowByte s.fall.ph1
  else if a = 0x17 then highByte s.fall.ph1
  else if a = 0x18 then lowByte s.rise.ph2
  else if a = 0x19 then highByte s.rise.ph2
  else if a = 0x1A then lowByte s.fall.ph2
  else if a = 0x1B then highByte s.fall.ph2
  else if 0x40 ≤ a ∧ a < 0x40 + 2 * s.cfg.n ∧ a ≤ 0x7F then Memory.read s.mem a
  else if 0x80 ≤ a ∧ a < 0x80 + 2 * s.cfg.n ∧ a ≤ 0xBF then
    selectByte (refWord s.cfg ((a - 0x80) / 2)) (decide ((a - 0x80) % 2 = 1))
  else 0x00

/-- The command whose code is `d` (45_drive_state_machine.md R167, one cell per case). -/
def runCommand (s : State) (d : Byte) : State :=
  match s.drive with
  | .uninitialized => if d = 0x01 then stop s else s
  | .disabled =>
    if d = 0x02 then { s with cnt := 0x00, idx := initIdx s.cfg.n s.dir, drive := .running }
    else if d = 0x04 then swapDirection s
    else s
  | .running =>
    if d = 0x03 then stop s
    else if d = 0x04 then swapDirection (stop s)
    else s

/-- `MemWrite(addr, 1, v)` (20_memory.md R52). -/
def memWrite (s : State) (addr v : Byte) : State :=
  let a := addr.toNat
  if a = 0x00 then runCommand s v
  else if a = 0x02 then { s with divtgt := v }
  else if 0x40 ≤ a ∧ a < 0x40 + 2 * s.cfg.n ∧ a ≤ 0x7F then
    { s with mem := Memory.write s.mem a v }
  else s

end Sys2Proof.Machine
end

