-- ==== Sys2Proof/Machine/Command.lean ====
section
/-! DEFINITION. The commands of the drive state machine (45_drive_state_machine.md R160 to R164). -/

namespace Sys2Proof.Machine

/-- `CMD.INIT` (45_drive_state_machine.md R161). -/
def execCmdInit (s : State) : Result :=
  if s.drive = .uninitialized then finishHost (stop s) else finishHost s

/-- `CMD.ENABLE` (45_drive_state_machine.md R162); the settle delay changes no state. -/
def execCmdEnable (s : State) : Result :=
  if s.drive = .disabled then
    finishHost { s with cnt := 0x00, idx := initIdx s.cfg.n s.dir, drive := .running }
  else finishHost s

/-- `CMD.DISABLE` (45_drive_state_machine.md R163). -/
def execCmdDisable (s : State) : Result :=
  if s.drive = .running then finishHost (stop s) else finishHost s

/-- `CMD.REVERSE` (45_drive_state_machine.md R164), its lines in order. -/
def execCmdReverse (s : State) : Result :=
  if s.drive = .uninitialized then finishHost s
  else finishHost (swapDirection (if s.drive = .running then stop s else s))

end Sys2Proof.Machine
end

