-- ==== Sys2Proof/Machine/EmptySlot.lean ====
section
/-! DEFINITION. The empty slots (30_encoding.md R78). -/

namespace Sys2Proof.Machine

/-- `ONOP`: no state change, `CMP_STB = 0` (30_encoding.md R78). -/
def execOnop (s : State) : Result := finishEvent s false

/-- `HNOP`: no state change, `RDATA = 0x00` (30_encoding.md R78). -/
def execHnop (s : State) : Result := finishHost s

end Sys2Proof.Machine
end

