-- ==== Sys2Proof/Machine/HostRead.lean ====
section
/-! DEFINITION. The host reads (40_host_access.md R91 to R104). -/

namespace Sys2Proof.Machine

/-- `RD.STATUS` (40_host_access.md R91). -/
def execRdStatus (s : State) : Result := finishRead s s.statusByte

/-- `RD.DIVTGT` (40_host_access.md R92). -/
def execRdDivtgt (s : State) : Result := finishRead s s.divtgt

/-- `RD.CNT` (40_host_access.md R93). -/
def execRdCnt (s : State) : Result := finishRead s s.cnt

/-- `RD.IDX0`: `zext_IW(IDX[0])`, the stored value, which may be `N` (40_host_access.md R94). -/
def execRdIdx0 (s : State) : Result := finishRead s (BitVec.ofNat 8 s.idx.ph0)

/-- `RD.IDX120` (40_host_access.md R95). -/
def execRdIdx120 (s : State) : Result := finishRead s (BitVec.ofNat 8 s.idx.ph1)

/-- `RD.IDX240` (40_host_access.md R96). -/
def execRdIdx240 (s : State) : Result := finishRead s (BitVec.ofNat 8 s.idx.ph2)

/-- `RD.RISEL p` (40_host_access.md R97). -/
def execRdRisel (p : BitVec 2) (s : State) : Result := finishRead s (thresholdByte s.rise p false)

/-- `RD.RISEH p` (40_host_access.md R98). -/
def execRdRiseh (p : BitVec 2) (s : State) : Result := finishRead s (thresholdByte s.rise p true)

/-- `RD.FALLL p` (40_host_access.md R99). -/
def execRdFalll (p : BitVec 2) (s : State) : Result := finishRead s (thresholdByte s.fall p false)

/-- `RD.FALLH p` (40_host_access.md R100). -/
def execRdFallh (p : BitVec 2) (s : State) : Result := finishRead s (thresholdByte s.fall p true)

/-- `RD.SCALEDL i` (40_host_access.md R101). -/
def execRdScaledl (i : BitVec 5) (s : State) : Result := finishRead s (scaledByte s i false)

/-- `RD.SCALEDH i` (40_host_access.md R102). -/
def execRdScaledh (i : BitVec 5) (s : State) : Result := finishRead s (scaledByte s i true)

/-- `RD.REFL i` (40_host_access.md R103). -/
def execRdRefl (i : BitVec 5) (s : State) : Result := finishRead s (refByte s i false)

/-- `RD.REFH i` (40_host_access.md R104). -/
def execRdRefh (i : BitVec 5) (s : State) : Result := finishRead s (refByte s i true)

end Sys2Proof.Machine
end

