-- ==== Sys2Proof/Machine/HostWrite.lean ====
section
/-! DEFINITION. The host writes (40_host_access.md R105 to R107). -/

namespace Sys2Proof.Machine

/-- `WR.DIVTGT d` (40_host_access.md R105); `CNT` is not changed. -/
def execWrDivtgt (d : Byte) (s : State) : Result := finishHost { s with divtgt := d }

/-- `WR.SCALEDL i, d`: `TBL[2*i] <- d` (40_host_access.md R106). -/
def execWrScaledl (i : BitVec 5) (d : Byte) (s : State) : Result :=
  finishHost (setScaledByte s i false d)

/-- `WR.SCALEDH i, d`: `TBL[2*i+1] <- d` (40_host_access.md R107). -/
def execWrScaledh (i : BitVec 5) (d : Byte) (s : State) : Result :=
  finishHost (setScaledByte s i true d)

end Sys2Proof.Machine
end

