-- ==== Sys2Proof/Machine/Overflow.lean ====
section
/-! DEFINITION. The overflow event (42_overflow_divider.md R131 to R133). -/

namespace Sys2Proof.Machine

/-- `OVF` (42_overflow_divider.md R131): the increment comes before the compare, the compare is `>=`
(90_conflicts.md C1), the count is formed in `Z`; outside Running the event is lost (R133). -/
def execOvf (s : State) : Result :=
  if s.drive = .running then
    if s.divtgt.toNat ≤ s.cnt.toNat + 1 then
      andThen (tick s) fun t => finishEvent { t with cnt := 0x00 } true
    else finishEvent { s with cnt := BitVec.ofNat 8 (s.cnt.toNat + 1) } false
  else finishEvent s false

end Sys2Proof.Machine
end

