-- ==== Sys2Proof/Machine/Reserved.lean ====
section
/-! DEFINITION. The reserved accesses (40_host_access.md R108, R109, 45_drive_state_machine.md R165). -/

namespace Sys2Proof.Machine

/-- `H.RSVDW`: no state change, `RDATA = 0x00` (40_host_access.md R109, 45_drive_state_machine.md R165). -/
def execHRsvdw (_a _d : Byte) (s : State) : Result := finishHost s

/-- `H.RSVDR`: `RDATA <- 0x00`, no state change (40_host_access.md R108). -/
def execHRsvdr (_a : Byte) (s : State) : Result := finishRead s 0x00

end Sys2Proof.Machine
end

