-- ==== Sys2Proof/Machine/Reset.lean ====
section
/-! DEFINITION. The reset operation (70_reset_and_hazards.md R200). -/

namespace Sys2Proof.Machine

/-- `RST` (70_reset_and_hazards.md R200). -/
def execRst (s : State) : Result := .next (resetBlock s)

end Sys2Proof.Machine
end

