-- ==== Sys2Proof/Machine/Dispatch.lean ====
section
/-! DEFINITION. One arm per operation of 30_encoding.md R76. -/

namespace Sys2Proof.Machine

/-- The effect of one operation (30_encoding.md R76 names the rule of each). -/
def exec (i : Instr) (s : State) : Host.Outcome State Fault Refusal :=
  match i with
  | .rst => Sys2Proof.Machine.execRst s
  | .ovf => Sys2Proof.Machine.execOvf s
  | .onop => Sys2Proof.Machine.execOnop s
  | .hnop => Sys2Proof.Machine.execHnop s
  | .cmdInit => Sys2Proof.Machine.execCmdInit s
  | .cmdEnable => Sys2Proof.Machine.execCmdEnable s
  | .cmdDisable => Sys2Proof.Machine.execCmdDisable s
  | .cmdReverse => Sys2Proof.Machine.execCmdReverse s
  | .wrDivtgt d => Sys2Proof.Machine.execWrDivtgt d s
  | .wrScaledl j d => Sys2Proof.Machine.execWrScaledl j d s
  | .wrScaledh j d => Sys2Proof.Machine.execWrScaledh j d s
  | .rdStatus => Sys2Proof.Machine.execRdStatus s
  | .rdDivtgt => Sys2Proof.Machine.execRdDivtgt s
  | .rdCnt => Sys2Proof.Machine.execRdCnt s
  | .rdIdx0 => Sys2Proof.Machine.execRdIdx0 s
  | .rdIdx120 => Sys2Proof.Machine.execRdIdx120 s
  | .rdIdx240 => Sys2Proof.Machine.execRdIdx240 s
  | .rdRisel p => Sys2Proof.Machine.execRdRisel p s
  | .rdRiseh p => Sys2Proof.Machine.execRdRiseh p s
  | .rdFalll p => Sys2Proof.Machine.execRdFalll p s
  | .rdFallh p => Sys2Proof.Machine.execRdFallh p s
  | .rdScaledl j => Sys2Proof.Machine.execRdScaledl j s
  | .rdScaledh j => Sys2Proof.Machine.execRdScaledh j s
  | .rdRefl j => Sys2Proof.Machine.execRdRefl j s
  | .rdRefh j => Sys2Proof.Machine.execRdRefh j s
  | .hRsvdw a d => Sys2Proof.Machine.execHRsvdw a d s
  | .hRsvdr a => Sys2Proof.Machine.execHRsvdr a s

end Sys2Proof.Machine
end

