-- ==== Sys2Proof/Machine/RunOps.lean ====
section
/-! DEFINITION. The operations of one word, run in order (30_encoding.md R72). -/

namespace Sys2Proof.Machine

/-- Run operations one after another; a stop ends the run. -/
def runOps : List Instr → State → Result
  | [], s => .next s
  | i :: is, s => andThen (exec i s) (runOps is)

/-- The effect of one input word: its operations in order (30_encoding.md R72). -/
def runWord (w : Word) (s : State) : Result := runOps (decodeOps s.cfg.n w) s

/-- The effect of a sequence of input words (30_encoding.md R70). -/
def runWords : List Word → State → Result
  | [], s => .next s
  | w :: ws, s => andThen (runWord w s) (runWords ws)

end Sys2Proof.Machine
end

