-- ==== Sys2Proof/Machine/Step.lean ====
section
/-! DEFINITION. One step of the machine (30_encoding.md R70, R72). -/

namespace Sys2Proof.Machine

/-- One step: take the word the environment presents and run it (30_encoding.md R70, log entry 1). -/
def step (s : State) : Host.Outcome State Fault Refusal := runWord (inputWord s) (takeWord s)

/-- `s` with the `nbits` bits of `w` as the word of the very next step (log entries 1 and 14). -/
def State.withFetchWord (s : State) (nbits w : Nat) : State :=
  presentWord s (BitVec.ofNat 20 (w % 2 ^ nbits))

end Sys2Proof.Machine
end

