-- ==== Sys2Proof/Machine/SetFreq.lean ====
section
/-! DEFINITION. The host's arithmetic and the pseudo-operations that write (30_encoding.md R81,
40_host_access.md R111, 41_waveform_scaling.md R112 to R116, 42_overflow_divider.md R130). They are no
operations of the block: each is a function that gives the words the host presents
(log entry 10). -/

namespace Sys2Proof.Machine

/-- `clamp(v, lo, hi) = min(max(v, lo), hi)` (00_scope.md R10), on naturals. -/
def clampNat (v lo hi : Nat) : Nat := min (max v lo) hi

/-- `clamp(v, lo, hi) = min(max(v, lo), hi)` (00_scope.md R10), on rationals. -/
def clampRat (v lo hi : Rat) : Rat := min (max v lo) hi

/-- `Fc(f)` (41_waveform_scaling.md R115); `f` is 16 bits. -/
def clampedFreq (c : Config) (f : BitVec 16) : Nat := clampNat f.toNat c.minFreq c.maxFreq

/-- `Amp(f)`, exact in `Q` (41_waveform_scaling.md R112). -/
def amplitude (c : Config) (f : BitVec 16) : Rat :=
  clampRat (clampedFreq c f * c.vPerHz / c.busVoltage) c.minAmp c.maxAmp

/-- `Round(q)`: nearest, a tie going away from zero (41_waveform_scaling.md R114). -/
def roundAway (q : Rat) : Int := if 0 ≤ q then (q + 1 / 2).floor else -(-q + 1 / 2).floor

/-- `ScaledOf(f)[i] = Round(REF[i] * Amp(f))` (41_waveform_scaling.md R113). -/
def scaledOf (c : Config) (f : BitVec 16) (i : Nat) : Int := roundAway (c.refAt i * amplitude c f)

/-- `DivTgtOf(f) = floor(BASE_RATE / Fc(f))` (42_overflow_divider.md R130). -/
def divTgtOf (c : Config) (f : BitVec 16) : Int := (c.baseRate / clampedFreq c f).floor

/-- `WR.SCALED i, v`: low byte first (30_encoding.md R81, 40_host_access.md R111). -/
def wrScaledWords (i : Nat) (v : Int) : List Word :=
  [encode (.wrScaledl (BitVec.ofNat 5 i) (lowByte (trunc16 v))),
    encode (.wrScaledh (BitVec.ofNat 5 i) (highByte (trunc16 v)))]

/-- `WR.SCALED i, v(i)` for each index of a list, in its order. -/
def wrEntriesWords (v : Nat → Int) : List Nat → List Word
  | [] => []
  | i :: is => wrScaledWords i (v i) ++ wrEntriesWords v is

/-- `WR.TABLE v(0), ..., v(N-1)`: index ascending (30_encoding.md R81). -/
def wrTableWords (n : Nat) (v : Nat → Int) : List Word := wrEntriesWords v (List.range n)

/-- `SETFREQ f`: the table, then the divider target, `2N + 1` words (41_waveform_scaling.md R116). -/
def setFreqWords (c : Config) (f : BitVec 16) : List Word :=
  wrTableWords c.n (scaledOf c f) ++ [encode (.wrDivtgt (BitVec.ofInt 8 (divTgtOf c f)))]

/-- `NOP`, both slots empty (30_encoding.md R78, R81). -/
def nopWord : Word := 0x00000

/-- `OVF*k`: `k` overflow events in `k` steps (30_encoding.md R81). -/
def ovfWords (k : Nat) : List Word := List.replicate k (encode .ovf)

end Sys2Proof.Machine
end

