-- ==== Sys2Proof/Machine/WideRead.lean ====
section
/-! DEFINITION. The 16-bit reads `MemRead(a, 2)` of 40_host_access.md R110: two read operations in two
steps, their combined result, and how it is read. They are no operations of the block (log entry 10). -/

namespace Sys2Proof.Machine

/-- The 16-bit read pseudo-operations (30_encoding.md R81). -/
inductive WideRead where
  /-- `RD.SCALED i`. -/
  | scaled (i : BitVec 5)
  /-- `RD.REF i`. -/
  | ref (i : BitVec 5)
  /-- `RD.RISE p`. -/
  | rise (p : BitVec 2)
  /-- `RD.FALL p`. -/
  | fall (p : BitVec 2)
deriving DecidableEq, Repr

/-- The even address `a` of `MemRead(a, 2)` (10_state.md R35). -/
def WideRead.addr : WideRead → Byte
  | .scaled i => 0x40 + 2 * i.setWidth 8
  | .ref i => 0x80 + 2 * i.setWidth 8
  | .rise p => 0x10 + 4 * p.setWidth 8
  | .fall p => 0x12 + 4 * p.setWidth 8

/-- The first operation, the read of the low byte. -/
def WideRead.low : WideRead → Instr
  | .scaled i => .rdScaledl i
  | .ref i => .rdRefl i
  | .rise p => .rdRisel p
  | .fall p => .rdFalll p

/-- The second operation, the read of the high byte. -/
def WideRead.high : WideRead → Instr
  | .scaled i => .rdScaledh i
  | .ref i => .rdRefh i
  | .rise p => .rdRiseh p
  | .fall p => .rdFallh p

/-- The two words, the low byte first, with no event in either (30_encoding.md R81). -/
def WideRead.words (r : WideRead) : List Word := [encode r.low, encode r.high]

/-- `RD.SCALED i` (40_host_access.md R110). -/
def rdScaledWords (i : BitVec 5) : List Word := WideRead.words (.scaled i)

/-- `RD.REF i` (40_host_access.md R110). -/
def rdRefWords (i : BitVec 5) : List Word := WideRead.words (.ref i)

/-- `RD.RISE p` (40_host_access.md R110). -/
def rdRiseWords (p : BitVec 2) : List Word := WideRead.words (.rise p)

/-- `RD.FALL p` (40_host_access.md R110). -/
def rdFallWords (p : BitVec 2) : List Word := WideRead.words (.fall p)

/-- The 16 bits read: `{second RDATA, first RDATA}` (40_host_access.md R110). -/
def readPair (first second : Byte) : Half := joinBytes second first

/-- The number 16 bits stand for: "read as signed for `SCALED` and unsigned for the rest"
(40_host_access.md R110). -/
def WideRead.value : WideRead → Half → Int
  | .scaled _, v => sext16 v
  | .ref _, v => v.toNat
  | .rise _, v => v.toNat
  | .fall _, v => v.toNat

/-- The result of a 16-bit read from the two `RDATA` (40_host_access.md R110). -/
def WideRead.result (r : WideRead) (first second : Byte) : Int := r.value (readPair first second)

/-- A 16-bit read in two steps that follow one another, with the event operations `e1` and `e2` in
their event slots: its result, and the state after the second step. It is not atomic
(40_host_access.md R110, 70_reset_and_hazards.md R212). -/
def wideRead (r : WideRead) (e1 e2 : Instr) (s : State) :
    Host.Outcome (Int × State) Fault Refusal :=
  match runWord (encodePair e1 r.low) s with
  | .next t =>
    match runWord (encodePair e2 r.high) t with
    | .next u => .next (r.result t.rdata u.rdata, u)
    | .fault e => .fault e
    | .refused e => .refused e
  | .fault e => .fault e
  | .refused e => .refused e

/-- The 16 bits of the field a 16-bit read names, in one state. -/
def WideRead.pattern (s : State) : WideRead → Half
  | .scaled i => s.scaled i.toNat
  | .ref i => refWord s.cfg i.toNat
  | .rise p => (s.rise.at? p).getD 0
  | .fall p => (s.fall.at? p).getD 0

end Sys2Proof.Machine
end

