-- ==== Sys2Proof/Safety.lean ====
section
/-! DEFINITION. The invariants of 10_state.md R40 and what a safe run is. -/

namespace Sys2Proof.Machine

/-- The compare-pair invariant of one phase (10_state.md R31). -/
abbrev PairOk (c : Config) (rise fall : Half) : Prop :=
  (rise = 0 ∧ fall = 0) ∨
    (fall.toNat = rise.toNat + c.deadAdd ∧ (rise = 0 ∨ c.minPulse ≤ rise.toNat))

/-- `(IDX[k] - IDX[0]) mod N = INIT_IDX(DIR)[k]` for `k` = 1 and 2 (10_state.md R28). -/
abbrev OffsetsOk (s : State) : Prop :=
  ((s.idx.ph1 : Int) - s.idx.ph0) % s.cfg.n = (initIdx s.cfg.n s.dir).ph1 ∧
    ((s.idx.ph2 : Int) - s.idx.ph0) % s.cfg.n = (initIdx s.cfg.n s.dir).ph2

/-- The invariants of 10_state.md R40 (its item 1 is the type `Drive`), with the constraints of
00_scope.md R7 on the block's parameters and the canonical form of memory. -/
structure Inv (s : State) : Prop where
  /-- 00_scope.md R7 items 1 to 3. -/
  legal : s.cfg.BlockLegal
  /-- R40 item 2. -/
  dirForward : s.drive = .uninitialized → s.dir = .forward
  /-- R40 item 3, first half. -/
  cntBound : s.cnt.toNat ≤ 254
  /-- R40 item 3, second half. -/
  cntZero : s.drive ≠ .running → s.cnt = 0
  /-- R40 item 4, first half. -/
  idxBound : s.idx.ph0 ≤ s.cfg.n ∧ s.idx.ph1 ≤ s.cfg.n ∧ s.idx.ph2 ≤ s.cfg.n
  /-- R40 item 4, second half. -/
  oneAtN : ¬(s.idx.ph0 = s.cfg.n ∧ s.idx.ph1 = s.cfg.n) ∧
    ¬(s.idx.ph0 = s.cfg.n ∧ s.idx.ph2 = s.cfg.n) ∧ ¬(s.idx.ph1 = s.cfg.n ∧ s.idx.ph2 = s.cfg.n)
  /-- R40 item 5. -/
  offsets : OffsetsOk s
  /-- R40 item 6. -/
  stopped : s.drive ≠ .running →
    s.idx = initIdx s.cfg.n s.dir ∧ s.rise = PerPhase.const 0 ∧ s.fall = PerPhase.const 0
  /-- R40 item 7. -/
  pairs : PairOk s.cfg s.rise.ph0 s.fall.ph0 ∧ PairOk s.cfg s.rise.ph1 s.fall.ph1 ∧
    PairOk s.cfg s.rise.ph2 s.fall.ph2
  /-- The canonical form of memory. -/
  memWf : Memory.wf s.mem = true
  /-- Only the scaled table is listed (20_memory.md R50). -/
  memTable : Memory.inTable s.cfg.n s.mem = true

/-- `r` and `f` are the thresholds of the sample in scaled entry `j` (10_state.md R29,
43_pwm_output_driver.md R140, R141): the two bytes of the entry read as a signed number, `DEAD_SUB`
subtracted, collapsed to 0 below `MIN_PULSE`, `DEAD_ADD` added. -/
abbrev ThresholdsOf (s : State) (j : Nat) (r f : Half) : Prop :=
  (r.toNat : Int) =
      (if BitVec.toInt (Memory.read s.mem (0x40 + (2 * j + 1)) ++ Memory.read s.mem (0x40 + 2 * j))
            - s.cfg.deadSub < s.cfg.minPulse then 0
        else BitVec.toInt (Memory.read s.mem (0x40 + (2 * j + 1)) ++ Memory.read s.mem (0x40 + 2 * j))
            - s.cfg.deadSub) ∧
    f.toNat = r.toNat + s.cfg.deadAdd

/-- What a tick at index `i` leaves in one phase (44_phase_index_tracker.md R150): the index `i'`, one
above the entry read, which is `0` for `i = N`, and that entry's thresholds. -/
abbrev PhaseTicked (s : State) (i i' : Nat) (r f : Half) : Prop :=
  i' = (if i = s.cfg.n then 0 else i) + 1 ∧ ThresholdsOf s (if i = s.cfg.n then 0 else i) r f

/-- A safe run: every number of steps answers a next state. "The block never refuses a word, never
stalls and never ends a run of its own accord" (30_encoding.md R70). -/
def Safe (s : State) : Prop := ∀ k, ∃ t, Sys2Proof.core.run k s = .next t

end Sys2Proof.Machine
end

