-- ==== Sys2Proof/Certificates/Slice0/Obligations.lean ====
section
/-! DEFINITION. The statements about the machine, from the numbered rules of spec/. -/

open Sys2Proof Sys2Proof.Machine

/-! ### Decoding and encoding (30_encoding.md) -/

/-- 30_encoding.md R82 (an inference of the spec's) with R76: every word decodes, to `RST` where bit
19 is set and else to one event and one host operation, each well-formed and each with the fixed
bits of its row. -/
def Obligations.EveryWordDecodesToItsRows : Prop :=
  ∀ (n : Nat) (w : Word), n ≤ 32 →
    (w.getLsbD 19 = true → decodeOps n w = [.rst] ∧ Instr.rst.matchesRow w = true) ∧
    (w.getLsbD 19 = false → ∃ e h, decodeOps n w = [e, h] ∧ e.slot = .event ∧ h.slot = .host ∧
      (w.getLsbD 18 = true ↔ e = .ovf) ∧ (w.getLsbD 17 = false ↔ h = .hnop) ∧
      e.wellFormed n = true ∧ h.wellFormed n = true ∧
      e.matchesRow w = true ∧ h.matchesRow w = true)

/-- 30_encoding.md R76, "Within slot H the rows are disjoint": inside a slot no word has the fixed
bits of two rows, the two catch-all rows apart. -/
def Obligations.RowsOfASlotAreDisjoint : Prop :=
  ∀ (n : Nat) (w : Word) (i j : Instr), i.slot = j.slot →
    i.wellFormed n = true → j.wellFormed n = true →
    i.matchesRow w = true → j.matchesRow w = true →
    (∀ a d, i ≠ .hRsvdw a d ∧ j ≠ .hRsvdw a d) → (∀ a, i ≠ .hRsvdr a ∧ j ≠ .hRsvdr a) →
    i.rowMask = j.rowMask ∧ i.rowMatch = j.rowMatch

/-- Decode and encode agree: the word `e || h` of R80 decodes to `e` and `h`, with every operand at
every value the encoding admits. -/
def Obligations.EncodedOperationsDecodeBack : Prop :=
  ∀ (n : Nat) (e h : Instr), e.slot = .event → h.slot = .host → h.wellFormed n = true →
    decodeOps n (encodePair e h) = [e, h] ∧ decodeOps n (encode .rst) = [.rst]

/-- The other direction: a word whose ignored bits are 0 (30_encoding.md R77 item 1, the canonical
encoding) is the encoding of what it decodes to. -/
def Obligations.CanonicalWordsEncodeBack : Prop :=
  ∀ (n : Nat) (w : Word), w.getLsbD 19 = false →
    (w.getLsbD 17 = false → w &&& 0x1FFFF = 0) →
    (w.getLsbD 17 = true → w.getLsbD 16 = false → w &&& 0x000FF = 0) →
    ∃ e h, decodeOps n w = [e, h] ∧ encodePair e h = w

/-- 93_implementation_defined.md U7: two words that differ in ignored bits only have the same
effect. -/
def Obligations.IgnoredBitsHaveNoEffect : Prop :=
  ∀ (s : State) (v w : Word),
    (v.getLsbD 19 = true → w.getLsbD 19 = true → runWord v s = runWord w s) ∧
    (v &&& 0xE0000 = w &&& 0xE0000 → v.getLsbD 17 = false → runWord v s = runWord w s) ∧
    (v &&& 0xFFF00 = w &&& 0xFFF00 → v.getLsbD 16 = false → runWord v s = runWord w s)

/-- A few words written out in 30_encoding.md R80 and 95_test_vectors.md section 2.1, at N = 15. -/
def Obligations.WordsOfTheSpecDecode : Prop :=
  decodeOps 15 0xFFFFF = [.rst] ∧ decodeOps 15 0x5FFFF = [.ovf, .hnop] ∧
    decodeOps 15 0x70003 = [.ovf, .cmdDisable] ∧ decodeOps 15 0x30005 = [.onop, .hRsvdw 0x00 0x05] ∧
    decodeOps 15 0x34A68 = [.onop, .wrScaledl 5 0x68] ∧ decodeOps 15 0x35D00 = [.onop, .wrScaledh 14 0] ∧
    decodeOps 15 0x35E01 = [.onop, .hRsvdw 0x5E 0x01] ∧ decodeOps 15 0x21B00 = [.onop, .rdFallh 2] ∧
    decodeOps 15 0x29200 = [.onop, .rdRefl 9] ∧ decodeOps 15 0x60300 = [.ovf, .rdCnt]

/-! ### The step (30_encoding.md R70 to R72) -/

/-- A step runs the operations its word decodes to. The model's choice (log entry 1): the word is
the first queued word, or a free word of the environment where none is queued; a presented word is
the next. -/
def Obligations.StepRunsTheDecodedOperations : Prop :=
  ∀ s : State,
    (∀ w ws, s.input = w :: ws → step s = runWord w { s with input := ws }) ∧
    (s.input = [] → step s = runWord (Config.envWord s.envPos) { s with envPos := s.envPos + 1 }) ∧
    (∀ nbits w : Nat, step (s.withFetchWord nbits w) = runWord (BitVec.ofNat 20 (w % 2 ^ nbits)) s) ∧
    (∀ w i, decodeOps s.cfg.n w = [i] → runWord w s = exec i s) ∧
    (∀ w e h m, decodeOps s.cfg.n w = [e, h] → exec e s = .next m → runWord w s = exec h m) ∧
    (∀ w e h x, decodeOps s.cfg.n w = [e, h] → exec e s = .fault x → runWord w s = .fault x)

/-- The word `e || h` performs the event operation `e` first and the host operation `h` on the state
it leaves: the event "sees none of the access's effect; the access sees all of the event's"
(30_encoding.md R72, 70_reset_and_hazards.md R216). -/
def Obligations.EventRunsBeforeTheHostAccess : Prop :=
  ∀ (s : State) (e h : Instr), e.slot = .event → h.slot = .host → h.wellFormed s.cfg.n = true →
    (∀ m, exec e s = .next m → runWord (encodePair e h) s = exec h m) ∧
    (∀ x, exec e s = .fault x → runWord (encodePair e h) s = .fault x)

/-- 10_state.md R34: the output record of a step. `RDATA` is the byte a host read returns, `0x00` in
a step with no host read; `CMP_STB` is 1 exactly in a step that ticked. -/
def Obligations.OutputRecordOfAStep : Prop :=
  ∀ (w : Word) (s t : State), runWord w s = .next t →
    (w.getLsbD 19 = true → t.rdata = 0x00 ∧ t.cmpStb = false) ∧
    (w.getLsbD 19 = false →
      (w.getLsbD 17 = true ∧ w.getLsbD 16 = false → t.rdata = memRead t (w.extractLsb' 8 8)) ∧
      (w.getLsbD 17 = false ∨ w.getLsbD 16 = true → t.rdata = 0x00) ∧
      (t.cmpStb = true ↔
        w.getLsbD 18 = true ∧ s.drive = .running ∧ s.divtgt.toNat ≤ s.cnt.toNat + 1))

/-! ### Reset and the empty slots -/

/-- 70_reset_and_hazards.md R200: what `RST` writes, that every word with bit 19 set is `RST`, and
the status outputs it leaves. That the configuration stays is deduced, that the queued words and the
free-word count stay is the model's choice (log entry 6). -/
def Obligations.RstGivesTheResetState : Prop :=
  ∀ s : State, ∃ t, exec .rst s = .next t ∧
    t = { s with
      drive := .uninitialized, dir := .forward, divtgt := 0xFF, cnt := 0x00,
      idx := ⟨0, s.cfg.n / 3, 2 * s.cfg.n / 3⟩, mem := t.mem,
      rise := ⟨0, 0, 0⟩, fall := ⟨0, 0, 0⟩, rdata := 0x00, cmpStb := false } ∧
    (∀ a, Memory.read t.mem a = 0x00) ∧
    t.tmrRun = false ∧ t.irqEn = false ∧ t.outOff = true ∧
    ∀ w : Word, w.getLsbD 19 = true → decodeOps s.cfg.n w = [.rst] ∧ runWord w s = .next t

/-- 70_reset_and_hazards.md R202, and R201 (an inference of the spec's), at State.reset: the drive
state, the outputs, `STATUS`, every register. The table length 15 and the empty queue are the
model's choices (log entries 1 and 2), and so are the two fields of the output record before the
first step (log entry 5). -/
def Obligations.ResetStateIsAsStated : Prop :=
  State.reset.drive = .uninitialized ∧ State.reset.dir = .forward ∧ State.reset.divtgt = 0xFF ∧
    State.reset.cnt = 0x00 ∧ State.reset.idx = ⟨0, 5, 10⟩ ∧
    (∀ a, Memory.read State.reset.mem a = 0x00) ∧
    State.reset.rise = ⟨0, 0, 0⟩ ∧ State.reset.fall = ⟨0, 0, 0⟩ ∧
    State.reset.irqEn = false ∧ State.reset.tmrRun = false ∧ State.reset.outOff = true ∧
    State.reset.statusByte = 0x08 ∧ State.reset.rdata = 0x00 ∧ State.reset.cmpStb = false ∧
    State.reset.input = []

/-- 30_encoding.md R78: the empty slots do nothing; `CMP_STB` is 0 for an empty event slot, `RDATA`
is `0x00` for an empty host slot; the word `0x00000` changes nothing else. -/
def Obligations.EmptySlotsDoNothing : Prop :=
  ∀ s : State, exec .onop s = .next { s with cmpStb := false } ∧
    exec .hnop s = .next { s with rdata := 0x00 } ∧
    decodeOps s.cfg.n 0x00000 = [.onop, .hnop] ∧
    runWord 0x00000 s = .next { s with cmpStb := false, rdata := 0x00 }

/-! ### The overflow event (42_overflow_divider.md, 43_pwm_output_driver.md, 44_phase_index_tracker.md) -/

/-- 42_overflow_divider.md R133: outside Running the event changes nothing and `CMP_STB = 0`. -/
def Obligations.OverflowOutsideRunningIsLost : Prop :=
  ∀ s : State, s.drive ≠ .running → exec .ovf s = .next { s with cmpStb := false }

/-- 42_overflow_divider.md R131, the branch below the target: only the count moves. -/
def Obligations.OverflowBelowTheTargetCounts : Prop :=
  ∀ s : State, s.drive = .running → s.cnt.toNat + 1 < s.divtgt.toNat →
    ∃ t, exec .ovf s = .next t ∧ t = { s with cnt := t.cnt, cmpStb := false } ∧
      t.cnt.toNat = s.cnt.toNat + 1

/-- 42_overflow_divider.md R131 with 44_phase_index_tracker.md R150 and 43_pwm_output_driver.md
R141: at the target the event ticks. In each phase the index wraps lazily, the entry is read, the
two thresholds are written, the index is incremented; the count is cleared, `CMP_STB = 1`, and
nothing else changes. -/
def Obligations.OverflowAtTheTargetTicks : Prop :=
  ∀ s : State, s.cfg.BlockLegal → s.drive = .running → s.divtgt.toNat ≤ s.cnt.toNat + 1 →
    s.idx.ph0 ≤ s.cfg.n → s.idx.ph1 ≤ s.cfg.n → s.idx.ph2 ≤ s.cfg.n →
    ∃ t, exec .ovf s = .next t ∧
      t = { s with cnt := 0x00, cmpStb := true, idx := t.idx, rise := t.rise, fall := t.fall } ∧
      PhaseTicked s s.idx.ph0 t.idx.ph0 t.rise.ph0 t.fall.ph0 ∧
      PhaseTicked s s.idx.ph1 t.idx.ph1 t.rise.ph1 t.fall.ph1 ∧
      PhaseTicked s s.idx.ph2 t.idx.ph2 t.rise.ph2 t.fall.ph2

/-- 44_phase_index_tracker.md R154, 93_implementation_defined.md U5 (that it is a fault is the
model's choice, log entry 3): of all operations only `OVF` can stop, exactly where a tick would read
with an index that is not below N after the wrap; every other operation, and every other `OVF`,
completes. -/
def Obligations.OnlyATickAboveNStops : Prop :=
  ∀ (i : Instr) (s : State),
    ((∃ t, exec i s = .next t) ↔
      ¬(i = .ovf ∧ s.drive = .running ∧ s.divtgt.toNat ≤ s.cnt.toNat + 1 ∧
        (s.cfg.n < s.idx.ph0 ∨ s.cfg.n < s.idx.ph1 ∨ s.cfg.n < s.idx.ph2 ∨ s.cfg.n = 0))) ∧
    (i = .ovf ∧ s.drive = .running ∧ s.divtgt.toNat ≤ s.cnt.toNat + 1 ∧
        (s.cfg.n < s.idx.ph0 ∨ s.cfg.n < s.idx.ph1 ∨ s.cfg.n < s.idx.ph2 ∨ s.cfg.n = 0) →
      exec i s = .fault .indexAboveN)

/-- 43_pwm_output_driver.md R140 with the inferences the spec draws in R141, R142, R144: the range
of the thresholds of any sample. The rising one is 0 or between `MIN_PULSE` and `32767 - DEAD_SUB`,
the falling one is the rising one plus `DEAD_ADD` and fits 16 bits, and a negative sample collapses.
-/
def Obligations.DeadTimeStaysInRange : Prop :=
  ∀ (c : Config) (v : Int), c.BlockLegal → -32768 ≤ v → v ≤ 32767 →
    ((deadTime c v).1 = 0 ∨
      ((c.minPulse : Int) ≤ (deadTime c v).1 ∧ (deadTime c v).1 ≤ 32767 - c.deadSub)) ∧
    (deadTime c v).2 = (deadTime c v).1 + c.deadAdd ∧
    0 ≤ (deadTime c v).1 ∧ (deadTime c v).2 ≤ 65535 ∧
    (v - c.deadSub < c.minPulse → deadTime c v = (0, (c.deadAdd : Int))) ∧
    (c.minPulse ≤ v - c.deadSub → (deadTime c v).1 = v - c.deadSub) ∧
    (v < 0 → deadTime c v = (0, (c.deadAdd : Int)))

/-- 42_overflow_divider.md R134 (an inference of the spec's): with `T = max(DIVTGT, 1)`, from `CNT =
0` in Running the next tick comes in the T-th overflow event; before it only the count moves. -/
def Obligations.TicksAreSpacedByTheTarget : Prop :=
  ∀ s : State, s.cfg.BlockLegal → s.drive = .running → s.cnt = 0x00 →
    s.idx.ph0 ≤ s.cfg.n → s.idx.ph1 ≤ s.cfg.n → s.idx.ph2 ≤ s.cfg.n →
    (∀ k, 0 < k → k < max s.divtgt.toNat 1 →
      ∃ t, runOps (List.replicate k .ovf) s = .next t ∧
        t = { s with cnt := t.cnt, cmpStb := false } ∧ t.cnt.toNat = k) ∧
    ∃ t, runOps (List.replicate (max s.divtgt.toNat 1) .ovf) s = .next t ∧
      t.cmpStb = true ∧ t.cnt = 0x00 ∧
      t.idx.ph0 = (if s.idx.ph0 = s.cfg.n then 0 else s.idx.ph0) + 1

/-- 44_phase_index_tracker.md R152 (an inference of the spec's): numbering the ticks after an enable
from 0, tick `k` reads for each phase the entry `(INIT_IDX(DIR) + k) mod N` and leaves the index one
above it: every phase walks the table in order and skips no entry. -/
def Obligations.PhasesWalkTheTableInOrder : Prop :=
  ∀ s : State, s.cfg.BlockLegal → s.drive = .running → s.cnt = 0x00 →
    s.idx = initIdx s.cfg.n s.dir →
    ∀ k : Nat, ∃ t, runOps (List.replicate ((k + 1) * max s.divtgt.toNat 1) .ovf) s = .next t ∧
      t = { s with
        cnt := 0x00, cmpStb := true, idx := t.idx, rise := t.rise, fall := t.fall } ∧
      (t.idx.ph0 = ((initIdx s.cfg.n s.dir).ph0 + k) % s.cfg.n + 1 ∧
        ThresholdsOf s (((initIdx s.cfg.n s.dir).ph0 + k) % s.cfg.n) t.rise.ph0 t.fall.ph0) ∧
      (t.idx.ph1 = ((initIdx s.cfg.n s.dir).ph1 + k) % s.cfg.n + 1 ∧
        ThresholdsOf s (((initIdx s.cfg.n s.dir).ph1 + k) % s.cfg.n) t.rise.ph1 t.fall.ph1) ∧
      (t.idx.ph2 = ((initIdx s.cfg.n s.dir).ph2 + k) % s.cfg.n + 1 ∧
        ThresholdsOf s (((initIdx s.cfg.n s.dir).ph2 + k) % s.cfg.n) t.rise.ph2 t.fall.ph2)

/-- 10_state.md R30: "The tick never reads `REF`": with any other reference table the event does the
same and leaves that table. -/
def Obligations.OverflowDoesNotReadTheReference : Prop :=
  ∀ (s t : State) (r : List Nat), exec .ovf s = .next t →
    exec .ovf { s with cfg := { s.cfg with ref := r } } =
      .next { t with cfg := { t.cfg with ref := r } }

/-! ### The drive state machine (45_drive_state_machine.md) -/

/-- 45_drive_state_machine.md R161: `CMD.INIT`, the word `0x30001`, performs `Stop()` in
Uninitialized, the status outputs unchanged in value; elsewhere it does nothing. -/
def Obligations.InitTakesUninitializedToDisabled : Prop :=
  ∀ s : State, decodeOps s.cfg.n 0x30001 = [.onop, .cmdInit] ∧
    (s.drive = .uninitialized → ∃ t, exec .cmdInit s = .next t ∧
      t = { s with
        drive := .disabled, cnt := 0x00, idx := initIdx s.cfg.n s.dir,
        rise := ⟨0, 0, 0⟩, fall := ⟨0, 0, 0⟩, rdata := 0x00 } ∧
      t.tmrRun = s.tmrRun ∧ t.irqEn = s.irqEn ∧ t.outOff = s.outOff) ∧
    (s.drive ≠ .uninitialized → exec .cmdInit s = .next { s with rdata := 0x00 })

/-- 45_drive_state_machine.md R162: `CMD.ENABLE`, the word `0x30002`, takes Disabled to Running at
the start of the cycle, the thresholds unchanged, and sets the status outputs; elsewhere it does
nothing. -/
def Obligations.EnableTakesDisabledToRunning : Prop :=
  ∀ s : State, decodeOps s.cfg.n 0x30002 = [.onop, .cmdEnable] ∧
    (s.drive = .disabled → ∃ t, exec .cmdEnable s = .next t ∧
      t = { s with
        drive := .running, cnt := 0x00, idx := initIdx s.cfg.n s.dir, rdata := 0x00 } ∧
      t.tmrRun = true ∧ t.irqEn = true ∧ t.outOff = false) ∧
    (s.drive ≠ .disabled → exec .cmdEnable s = .next { s with rdata := 0x00 })

/-- 45_drive_state_machine.md R163: `CMD.DISABLE`, the word `0x30003`, stops a running block;
elsewhere it does nothing. -/
def Obligations.DisableTakesRunningToDisabled : Prop :=
  ∀ s : State, decodeOps s.cfg.n 0x30003 = [.onop, .cmdDisable] ∧
    (s.drive = .running → ∃ t, exec .cmdDisable s = .next t ∧
      t = { s with
        drive := .disabled, cnt := 0x00, idx := initIdx s.cfg.n s.dir,
        rise := ⟨0, 0, 0⟩, fall := ⟨0, 0, 0⟩, rdata := 0x00 } ∧
      t.tmrRun = false ∧ t.irqEn = false ∧ t.outOff = true) ∧
    (s.drive ≠ .running → exec .cmdDisable s = .next { s with rdata := 0x00 })

/-- 45_drive_state_machine.md R164: `CMD.REVERSE`, the word `0x30004`, goes through Disabled, swaps
the indices of phases 1 and 2 and toggles `DIR`; in Uninitialized it does nothing. -/
def Obligations.ReverseSwapsAndToggles : Prop :=
  ∀ s : State, decodeOps s.cfg.n 0x30004 = [.onop, .cmdReverse] ∧
    (s.drive = .uninitialized → exec .cmdReverse s = .next { s with rdata := 0x00 }) ∧
    (s.drive = .disabled → exec .cmdReverse s = .next { s with
      idx := ⟨s.idx.ph0, s.idx.ph2, s.idx.ph1⟩,
      dir := if s.dir = .forward then .reverse else .forward, rdata := 0x00 }) ∧
    (s.drive = .running → ∃ t, exec .cmdReverse s = .next t ∧
      t = { s with
        drive := .disabled, cnt := 0x00,
        idx := ⟨(initIdx s.cfg.n s.dir).ph0, (initIdx s.cfg.n s.dir).ph2,
          (initIdx s.cfg.n s.dir).ph1⟩,
        rise := ⟨0, 0, 0⟩, fall := ⟨0, 0, 0⟩,
        dir := if s.dir = .forward then .reverse else .forward, rdata := 0x00 } ∧
      t.tmrRun = false ∧ t.irqEn = false ∧ t.outOff = true)

/-- 45_drive_state_machine.md R165: a write to `0x00` of any code but 1, 2, 3, 4 changes no state.
-/
def Obligations.ReservedCommandCodesDoNothing : Prop :=
  ∀ (s : State) (d : Byte), (d = 0x00 ∨ 0x05 ≤ d.toNat) →
    decodeOps s.cfg.n (0x30000 ||| d.setWidth 20) = [.onop, .hRsvdw 0x00 d] ∧
    runWord (0x30000 ||| d.setWidth 20) s = .next { s with cmpStb := false, rdata := 0x00 }

/-- 45_drive_state_machine.md R164 and R162, the scenario of D0 §8: from Running, a reversal and
then an enable run the block again, in the other direction, from the other direction's offsets; two
reversals of a stopped block restore it. -/
def Obligations.ReversalSurvivesTheNextEnable : Prop :=
  ∀ s : State,
    (s.drive = .running → ∃ t, runOps [.cmdReverse, .cmdEnable] s = .next t ∧
      t.drive = .running ∧ t.dir = s.dir.flip ∧ t.dir ≠ s.dir ∧ t.idx = initIdx s.cfg.n t.dir ∧
      t.cnt = 0x00 ∧ t.mem = s.mem ∧ t.divtgt = s.divtgt) ∧
    (s.drive = .disabled → runOps [.cmdReverse, .cmdReverse] s = .next { s with rdata := 0x00 })

/-- 20_memory.md R55 item 5: `CMD.INIT`, `CMD.ENABLE`, `CMD.DISABLE` and every host write to
`DIVTGT` or the table are idempotent: done twice they do what they do once. -/
def Obligations.AllButReverseAreIdempotent : Prop :=
  ∀ (s : State) (i : Instr), Memory.wf s.mem = true →
    (i = .cmdInit ∨ i = .cmdEnable ∨ i = .cmdDisable ∨ (∃ d, i = .wrDivtgt d) ∨
      (∃ j d, i = .wrScaledl j d) ∨ ∃ j d, i = .wrScaledh j d) →
    ∃ t, runOps [i] s = .next t ∧ runOps [i, i] s = .next t

/-! ### Host accesses (40_host_access.md, 20_memory.md) -/

/-- 40_host_access.md R105: `WR.DIVTGT d`, the word `0x30200 | d`, stores `d`, 0 included, in every
drive state; `CNT` and all else stay. -/
def Obligations.WriteDivtgtStoresTheByte : Prop :=
  ∀ (s : State) (d : Byte),
    decodeOps s.cfg.n (0x30200 ||| d.setWidth 20) = [.onop, .wrDivtgt d] ∧
    exec (.wrDivtgt d) s = .next { s with divtgt := d, rdata := 0x00 }

/-- 70_reset_and_hazards.md R213 (an inference of the spec's): a target at or below `CNT + 1`,
written in mid-count, makes the next event of a running block tick at once; a larger one leaves the
count running on. -/
def Obligations.RetargetingTakesEffectAtTheNextEvent : Prop :=
  ∀ (s : State) (d : Byte), s.cfg.BlockLegal → s.drive = .running →
    s.idx.ph0 ≤ s.cfg.n → s.idx.ph1 ≤ s.cfg.n → s.idx.ph2 ≤ s.cfg.n →
    ∃ t, runOps [.wrDivtgt d, .ovf] s = .next t ∧ t.divtgt = d ∧
      (d.toNat ≤ s.cnt.toNat + 1 → t.cmpStb = true ∧ t.cnt = 0x00) ∧
      (s.cnt.toNat + 1 < d.toNat → t.cmpStb = false ∧ t.cnt.toNat = s.cnt.toNat + 1 ∧ t.idx = s.idx)

/-- 40_host_access.md R106, R107: a write of a byte of entry `i < N`, with its encoding, stores that
byte alone; every other byte of the host address space and every other element stays. For `i >= N`,
the reserved write of R109, nothing is stored. -/
def Obligations.WriteScaledStoresOneByte : Prop :=
  ∀ (s : State) (i : BitVec 5) (d : Byte), Memory.wf s.mem = true →
    (i.toNat < s.cfg.n →
      decodeOps s.cfg.n (0x34000 ||| i.setWidth 20 <<< 9 ||| d.setWidth 20) =
        [.onop, .wrScaledl i d] ∧
      decodeOps s.cfg.n (0x34100 ||| i.setWidth 20 <<< 9 ||| d.setWidth 20) =
        [.onop, .wrScaledh i d] ∧
      (∃ t, exec (.wrScaledl i d) s = .next t ∧ t = { s with mem := t.mem, rdata := 0x00 } ∧
        Memory.read t.mem (0x40 + 2 * i.toNat) = d ∧
        ∀ a, a ≠ 0x40 + 2 * i.toNat → Memory.read t.mem a = Memory.read s.mem a) ∧
      (∃ t, exec (.wrScaledh i d) s = .next t ∧ t = { s with mem := t.mem, rdata := 0x00 } ∧
        Memory.read t.mem (0x40 + 2 * i.toNat + 1) = d ∧
        ∀ a, a ≠ 0x40 + 2 * i.toNat + 1 → Memory.read t.mem a = Memory.read s.mem a)) ∧
    (s.cfg.n ≤ i.toNat →
      exec (.wrScaledl i d) s = .next { s with rdata := 0x00 } ∧
      exec (.wrScaledh i d) s = .next { s with rdata := 0x00 })

/-- 40_host_access.md R91, 10_state.md R33: `RD.STATUS`, the word `0x20100`, returns the byte of the
drive state and the direction and changes nothing else. -/
def Obligations.ReadStatusReturnsTheStatusByte : Prop :=
  ∀ s : State, decodeOps s.cfg.n 0x20100 = [.onop, .rdStatus] ∧ exec .rdStatus s = .next { s with
    rdata :=
      match s.drive, s.dir with
      | .uninitialized, .forward => 0x08
      | .uninitialized, .reverse => 0x0C
      | .disabled, .forward => 0x09
      | .disabled, .reverse => 0x0D
      | .running, .forward => 0x32
      | .running, .reverse => 0x36 }

/-- 40_host_access.md R92 to R96: the words and the effects of the reads of `DIVTGT`, `CNT` and the
three indices; an index that fits the byte reads as stored. -/
def Obligations.ReadScalarsReturnTheRegisters : Prop :=
  ∀ s : State,
    decodeOps s.cfg.n 0x20200 = [.onop, .rdDivtgt] ∧ decodeOps s.cfg.n 0x20300 = [.onop, .rdCnt] ∧
    decodeOps s.cfg.n 0x20400 = [.onop, .rdIdx0] ∧ decodeOps s.cfg.n 0x20500 = [.onop, .rdIdx120] ∧
    decodeOps s.cfg.n 0x20600 = [.onop, .rdIdx240] ∧
    exec .rdDivtgt s = .next { s with rdata := s.divtgt } ∧
    exec .rdCnt s = .next { s with rdata := s.cnt } ∧
    (∃ t, exec .rdIdx0 s = .next t ∧ t = { s with rdata := t.rdata } ∧
      (s.idx.ph0 ≤ 255 → t.rdata.toNat = s.idx.ph0)) ∧
    (∃ t, exec .rdIdx120 s = .next t ∧ t = { s with rdata := t.rdata } ∧
      (s.idx.ph1 ≤ 255 → t.rdata.toNat = s.idx.ph1)) ∧
    ∃ t, exec .rdIdx240 s = .next t ∧ t = { s with rdata := t.rdata } ∧
      (s.idx.ph2 ≤ 255 → t.rdata.toNat = s.idx.ph2)

/-- 40_host_access.md R97 to R100: the words and the effects of the reads of the bytes of the
thresholds of phase `p`; the words of `p = 3` are the reserved reads of R108. -/
def Obligations.ReadThresholdsReturnTheirBytes : Prop :=
  ∀ (s : State) (p : BitVec 2) (r f : Half),
    ((p = 0 ∧ r = s.rise.ph0 ∧ f = s.fall.ph0) ∨ (p = 1 ∧ r = s.rise.ph1 ∧ f = s.fall.ph1) ∨
      (p = 2 ∧ r = s.rise.ph2 ∧ f = s.fall.ph2) ∨ (p = 3 ∧ r = 0 ∧ f = 0)) →
    exec (.rdRisel p) s = .next { s with rdata := r.extractLsb' 0 8 } ∧
    exec (.rdRiseh p) s = .next { s with rdata := r.extractLsb' 8 8 } ∧
    exec (.rdFalll p) s = .next { s with rdata := f.extractLsb' 0 8 } ∧
    exec (.rdFallh p) s = .next { s with rdata := f.extractLsb' 8 8 } ∧
    (p ≠ 3 → decodeOps s.cfg.n (0x21000 ||| p.setWidth 20 <<< 10) = [.onop, .rdRisel p] ∧
      decodeOps s.cfg.n (0x21100 ||| p.setWidth 20 <<< 10) = [.onop, .rdRiseh p] ∧
      decodeOps s.cfg.n (0x21200 ||| p.setWidth 20 <<< 10) = [.onop, .rdFalll p] ∧
      decodeOps s.cfg.n (0x21300 ||| p.setWidth 20 <<< 10) = [.onop, .rdFallh p]) ∧
    (p = 3 → decodeOps s.cfg.n 0x21C00 = [.onop, .hRsvdr 0x1C] ∧
      decodeOps s.cfg.n 0x21D00 = [.onop, .hRsvdr 0x1D] ∧
      decodeOps s.cfg.n 0x21E00 = [.onop, .hRsvdr 0x1E] ∧
      decodeOps s.cfg.n 0x21F00 = [.onop, .hRsvdr 0x1F])

/-- 40_host_access.md R101, R102: the words and the effects of the reads of the bytes of entry `i <
N`; for `i >= N` the reserved read of R108. -/
def Obligations.ReadScaledReturnsTheTableByte : Prop :=
  ∀ (s : State) (i : BitVec 5),
    (i.toNat < s.cfg.n →
      decodeOps s.cfg.n (0x24000 ||| i.setWidth 20 <<< 9) = [.onop, .rdScaledl i] ∧
      decodeOps s.cfg.n (0x24100 ||| i.setWidth 20 <<< 9) = [.onop, .rdScaledh i] ∧
      exec (.rdScaledl i) s = .next { s with rdata := Memory.read s.mem (0x40 + 2 * i.toNat) } ∧
      exec (.rdScaledh i) s = .next { s with rdata := Memory.read s.mem (0x40 + 2 * i.toNat + 1) }) ∧
    (s.cfg.n ≤ i.toNat →
      exec (.rdScaledl i) s = .next { s with rdata := 0x00 } ∧
      exec (.rdScaledh i) s = .next { s with rdata := 0x00 })

/-- 40_host_access.md R103, R104: the words and the effects of the reads of the bytes of `REF[i]`,
`i < N`, in a legal configuration; bit 7 of the high byte is 0. For `i >= N` the reserved read of
R108. -/
def Obligations.ReadRefReturnsTheReferenceByte : Prop :=
  ∀ (s : State) (i : BitVec 5), s.cfg.BlockLegal →
    (i.toNat < s.cfg.n →
      decodeOps s.cfg.n (0x28000 ||| i.setWidth 20 <<< 9) = [.onop, .rdRefl i] ∧
      decodeOps s.cfg.n (0x28100 ||| i.setWidth 20 <<< 9) = [.onop, .rdRefh i] ∧
      (∃ t, exec (.rdRefl i) s = .next t ∧ t = { s with rdata := t.rdata } ∧
        t.rdata.toNat = s.cfg.ref.getD i.toNat 0 % 256) ∧
      (∃ t, exec (.rdRefh i) s = .next t ∧ t = { s with rdata := t.rdata } ∧
        t.rdata.toNat = s.cfg.ref.getD i.toNat 0 / 256 ∧ t.rdata.toNat < 128)) ∧
    (s.cfg.n ≤ i.toNat →
      exec (.rdRefl i) s = .next { s with rdata := 0x00 } ∧
      exec (.rdRefh i) s = .next { s with rdata := 0x00 })

/-- 40_host_access.md R108: the reserved reads are exactly the listed addresses, return `0x00` and
change no state. -/
def Obligations.ReservedReadsReturnZero : Prop :=
  ∀ (s : State) (a : Byte), s.cfg.n ≤ 32 →
    (decodeRead s.cfg.n a = .hRsvdr a ↔
      a.toNat = 0x00 ∨ (0x07 ≤ a.toNat ∧ a.toNat ≤ 0x0F) ∨ (0x1C ≤ a.toNat ∧ a.toNat ≤ 0x3F) ∨
        (0x40 + 2 * s.cfg.n ≤ a.toNat ∧ a.toNat ≤ 0x7F) ∨ 0x80 + 2 * s.cfg.n ≤ a.toNat) ∧
    exec (.hRsvdr a) s = .next { s with rdata := 0x00 }

/-- 40_host_access.md R109: the reserved writes are exactly the writes to every address except
`0x00`, `0x02` and the table (at `0x00` those of a reserved code, R165); they change no state. -/
def Obligations.ReservedWritesDoNothing : Prop :=
  ∀ (s : State) (a d : Byte), s.cfg.n ≤ 32 →
    (decodeWrite s.cfg.n a d = .hRsvdw a d ↔
      (a.toNat = 0x00 ∧ (d.toNat = 0x00 ∨ 0x05 ≤ d.toNat)) ∨
      (a.toNat ≠ 0x00 ∧ a.toNat ≠ 0x02 ∧ ¬(0x40 ≤ a.toNat ∧ a.toNat ≤ 0x40 + 2 * s.cfg.n - 1))) ∧
    exec (.hRsvdw a d) s = .next { s with rdata := 0x00 }

/-- 20_memory.md R52 over the map of 10_state.md R35, which "say the same thing from two sides" as
the decoding of 30_encoding.md R74: every read a word asks for is `MemRead` of its address, every
write is `MemWrite` of its address and data. -/
def Obligations.HostAccessesFollowTheRegisterMap : Prop :=
  ∀ (s : State) (a d : Byte),
    exec (decodeRead s.cfg.n a) s = .next { s with rdata := memRead s a } ∧
    exec (decodeWrite s.cfg.n a d) s = .next { memWrite s a d with rdata := 0x00 }

/-- 10_state.md R35: "`DIVTGT` and the `SCALED` bytes read back exactly what was written", and a
write to any other address but `CTRL` leaves what every address reads. -/
def Obligations.WritableAddressesReadBack : Prop :=
  ∀ (s : State) (a d : Byte), Memory.wf s.mem = true → a ≠ 0x00 →
    ((a = 0x02 ∨ (0x40 ≤ a.toNat ∧ a.toNat < 0x40 + 2 * s.cfg.n ∧ a.toNat ≤ 0x7F)) →
      memRead (memWrite s a d) a = d ∧ ∀ b, b ≠ a → memRead (memWrite s a d) b = memRead s b) ∧
    (¬(a = 0x02 ∨ (0x40 ≤ a.toNat ∧ a.toNat < 0x40 + 2 * s.cfg.n ∧ a.toNat ≤ 0x7F)) →
      memWrite s a d = s)

/-- 40_host_access.md R111 and 70_reset_and_hazards.md R210 (in part an inference of the spec's):
writing entry `i` from `A` to `B`, low byte first, passes through `{A[15:8], B[7:0]}`, which for
non-negative `A` and `B` is non-negative and within 255 of `A`, and ends at `B`. -/
def Obligations.TornEntryIsOldHighByteNewLowByte : Prop :=
  ∀ (s : State) (i : BitVec 5) (B : Half), Memory.wf s.mem = true → i.toNat < s.cfg.n →
    ∃ t u, exec (.wrScaledl i (B.extractLsb' 0 8)) s = .next t ∧
      exec (.wrScaledh i (B.extractLsb' 8 8)) t = .next u ∧
      t.scaled i.toNat = (s.scaled i.toNat).extractLsb' 8 8 ++ B.extractLsb' 0 8 ∧
      u.scaled i.toNat = B ∧
      (0 ≤ s.sample i.toNat → 0 ≤ B.toInt →
        0 ≤ t.sample i.toNat ∧ |t.sample i.toNat - s.sample i.toNat| ≤ 255)

/-! ### Rules over all operations -/

/-- 45_drive_state_machine.md R169 and the column "Written by" of 10_state.md R22: each element
changes only by the operations named for it. The clauses of `RDATA` and `CMP_STB` follow 10_state.md
R34 and 30_encoding.md R72 over the model's choice to hold the record in State (log entry 5). That
the configuration and the environment's words never change is the model's (log entries 1 and 2). -/
def Obligations.OnlyNamedOperationsWriteAnElement : Prop :=
  ∀ (i : Instr) (s t : State), exec i s = .next t →
    (t.drive ≠ s.drive → i = .rst ∨ i = .cmdInit ∨ i = .cmdEnable ∨ i = .cmdDisable ∨ i = .cmdReverse) ∧
    (t.dir ≠ s.dir → i = .rst ∨ i = .cmdReverse) ∧
    (t.divtgt ≠ s.divtgt → i = .rst ∨ ∃ d, i = .wrDivtgt d) ∧
    (t.cnt ≠ s.cnt → i = .rst ∨ i = .ovf ∨ i = .cmdInit ∨ i = .cmdEnable ∨ i = .cmdDisable ∨
      i = .cmdReverse) ∧
    (t.idx ≠ s.idx → i = .rst ∨ i = .ovf ∨ i = .cmdInit ∨ i = .cmdEnable ∨ i = .cmdDisable ∨
      i = .cmdReverse) ∧
    ((∃ a, Memory.read t.mem a ≠ Memory.read s.mem a) →
      i = .rst ∨ (∃ j d, i = .wrScaledl j d) ∨ ∃ j d, i = .wrScaledh j d) ∧
    (t.rise ≠ s.rise ∨ t.fall ≠ s.fall →
      i = .rst ∨ i = .ovf ∨ i = .cmdInit ∨ i = .cmdDisable ∨ i = .cmdReverse) ∧
    (t.rdata ≠ s.rdata → i = .rst ∨ i.slot = .host) ∧
    (t.cmpStb ≠ s.cmpStb → i = .rst ∨ i.slot = .event) ∧
    t.cfg = s.cfg ∧ t.input = s.input ∧ t.envPos = s.envPos

/-- What 45_drive_state_machine.md R167 says in prose under its table: the drive state after a step.
Uninitialized is left only by `CMD.INIT`, Running is entered only by `CMD.ENABLE` from Disabled, and
Uninitialized is entered again only by `RST`. -/
def Obligations.DriveStateFollowsTheTransitionTable : Prop :=
  ∀ (w : Word) (s t : State), runWord w s = .next t →
    (t.drive = .uninitialized → s.drive = .uninitialized ∨ w.getLsbD 19 = true) ∧
    (s.drive = .uninitialized → t.drive ≠ .uninitialized →
      t.drive = .disabled ∧ w &&& 0xBFFFF = 0x30001) ∧
    (t.drive = .running → s.drive ≠ .running → s.drive = .disabled ∧ w &&& 0xBFFFF = 0x30002) ∧
    (s.drive = .running → t.drive = .disabled → w &&& 0xBFFFF = 0x30003 ∨ w &&& 0xBFFFF = 0x30004)

/-- 10_state.md R33, "Reachable values": the values of `STATUS` in every state of the invariants. -/
def Obligations.StatusTakesFiveValues : Prop :=
  ∀ s : State, Inv s → s.statusByte ∈ ([0x08, 0x09, 0x0D, 0x32, 0x36] : List Byte)

/-! ### The invariants (10_state.md R40) -/

/-- The invariants of 10_state.md R40 (inferences of the spec's) hold right after reset. That the
configuration at reset is legal is the model's choice (log entry 2). -/
def Obligations.ResetMeetsTheInvariants : Prop := Inv State.reset

/-- 10_state.md R40 (inferences of the spec's): every step keeps the invariants, from every state
that has them. -/
def Obligations.EveryStepKeepsTheInvariants : Prop :=
  ∀ s t : State, Inv s → step s = .next t → Inv t

/-- 30_encoding.md R70, 60_exceptions.md R180: from every state of the invariants a step answers a
next state, whatever the word, and so does every number of steps. -/
def Obligations.TheBlockNeverStops : Prop :=
  ∀ s : State, Inv s →
    (∀ w, ∃ t, runWord w s = .next t) ∧ (∃ t, step s = .next t) ∧ Safe s

/-! ### The host's arithmetic and SETFREQ (41_waveform_scaling.md, 42_overflow_divider.md) -/

/-- 41_waveform_scaling.md R114: `Round(q)` is a nearest integer, a tie going away from zero; it is
`floor(q + 1/2)` for `q >= 0` and `-floor(-q + 1/2)` for `q < 0`. -/
def Obligations.RoundIsNearestTiesAway : Prop :=
  ∀ q : Rat, (0 ≤ q → roundAway q = (q + 1 / 2).floor) ∧ (q < 0 → roundAway q = -(-q + 1 / 2).floor) ∧
    |(roundAway q : Rat) - q| ≤ 1 / 2 ∧
    (|(roundAway q : Rat) - q| = 1 / 2 → |q| < |(roundAway q : Rat)|)

/-- 41_waveform_scaling.md R117 (an inference of the spec's): the amplitude and every scaled sample
are non-decreasing in `f`. -/
def Obligations.AmplitudeIsMonotone : Prop :=
  ∀ (c : Config) (f g : BitVec 16), c.Legal → f.toNat ≤ g.toNat →
    amplitude c f ≤ amplitude c g ∧ ∀ i, i < c.n → scaledOf c f i ≤ scaledOf c g i

/-- 41_waveform_scaling.md R118: at `MIN_FREQ = 20` the amplitude is `MIN_AMP = 1/10` and a scaled
sample is a tenth of the reference, rounded. -/
def Obligations.MinimumFrequencyGivesMinimumAmplitude : Prop :=
  ∀ (c : Config), c.Legal → c.minFreq = 20 → c.minAmp = 1 / 10 →
    amplitude c 20 = 1 / 10 ∧ ∀ i, i < c.n → scaledOf c 20 i = roundAway (c.refAt i / 10)

/-- 41_waveform_scaling.md R113 with its inferences, in a legal configuration with `MAX_AMP = 1`
(00_scope.md R6): every scaled sample is the rounded product, fits `0 .. 32767`, is 0 where the
reference is, and is the reference itself at amplitude 1. -/
def Obligations.ScaledSamplesFitAndKeepTheReferenceAtFullAmplitude : Prop :=
  ∀ (c : Config) (f : BitVec 16), c.Legal → c.maxAmp = 1 →
    0 < amplitude c f ∧ amplitude c f ≤ 1 ∧
    ∀ i, i < c.n → scaledOf c f i = roundAway (c.refAt i * amplitude c f) ∧
      0 ≤ scaledOf c f i ∧ scaledOf c f i ≤ 32767 ∧
      (c.refAt i = 0 → scaledOf c f i = 0) ∧ (amplitude c f = 1 → scaledOf c f i = c.refAt i)

/-- 42_overflow_divider.md R130 with its inferences: the divider target is the floor of `BASE_RATE`
over the clamped frequency; for every frequency it is in `1 .. 255`, and it does not grow with the
frequency. -/
def Obligations.DividerTargetFitsAndFalls : Prop :=
  ∀ (c : Config) (f g : BitVec 16), c.Legal →
    divTgtOf c f = (c.baseRate / (min (max f.toNat c.minFreq) c.maxFreq : Nat)).floor ∧
    1 ≤ divTgtOf c f ∧ divTgtOf c f ≤ 255 ∧ (f.toNat ≤ g.toNat → divTgtOf c g ≤ divTgtOf c f)

/-- 41_waveform_scaling.md R116: in a legal configuration with `MAX_AMP = 1` (00_scope.md R6) the
`2N + 1` words of `SETFREQ f`, in the order of the rule and with no other word between them, leave
every entry at `ScaledOf(f)` and `DIVTGT` at `DivTgtOf(f)`; nothing else of the block changes. -/
def Obligations.SetFreqFillsTheTableAndTheTarget : Prop :=
  ∀ (s : State) (f : BitVec 16), s.cfg.Legal → s.cfg.maxAmp = 1 → Memory.wf s.mem = true →
    (setFreqWords s.cfg f).length = 2 * s.cfg.n + 1 ∧
    (∀ (i : BitVec 5) (v : Half), i.toNat < s.cfg.n → v.toInt = scaledOf s.cfg f i.toNat →
      (setFreqWords s.cfg f)[2 * i.toNat]? =
        some (0x34000 ||| i.setWidth 20 <<< 9 ||| (v.extractLsb' 0 8).setWidth 20) ∧
      (setFreqWords s.cfg f)[2 * i.toNat + 1]? =
        some (0x34100 ||| i.setWidth 20 <<< 9 ||| (v.extractLsb' 8 8).setWidth 20)) ∧
    (∀ d : Byte, (d.toNat : Int) = divTgtOf s.cfg f →
      (setFreqWords s.cfg f)[2 * s.cfg.n]? = some (0x30200 ||| d.setWidth 20)) ∧
    ∃ t, runWords (setFreqWords s.cfg f) s = .next t ∧
      t = { s with mem := t.mem, divtgt := t.divtgt, rdata := 0x00, cmpStb := false } ∧
      (∀ i, i < s.cfg.n → t.sample i = scaledOf s.cfg f i) ∧
      (t.divtgt.toNat : Int) = divTgtOf s.cfg f ∧
      ∀ a, ¬(0x40 ≤ a ∧ a < 0x40 + 2 * s.cfg.n) → Memory.read t.mem a = Memory.read s.mem a

/-! ### The 16-bit reads (40_host_access.md) -/

/-- 40_host_access.md R110: a 16-bit read is the reads of the even address and of the next one. In two
steps with no event it gives the field itself, read as signed for `SCALED` and as unsigned for `REF`,
`RISE` and `FALL`. It is not atomic: whatever falls between the steps or in their event slots, the
result is the high byte of the field at the second step with the low byte at the first; `REF` is
always consistent. -/
def Obligations.WideReadsJoinTwoBytes : Prop :=
  ∀ (s : State) (r : WideRead), s.cfg.BlockLegal → r.low.wellFormed s.cfg.n = true →
    r.addr.toNat % 2 = 0 ∧ decodeRead s.cfg.n r.addr = r.low ∧
    decodeRead s.cfg.n (r.addr + 1) = r.high ∧
    r.words = [0x20000 ||| r.addr.setWidth 20 <<< 8, 0x20000 ||| (r.addr + 1).setWidth 20 <<< 8] ∧
    (∃ b, wideRead r .onop .onop s = .next
      (match r with
        | .scaled i => BitVec.toInt
            (Memory.read s.mem (0x40 + 2 * i.toNat + 1) ++ Memory.read s.mem (0x40 + 2 * i.toNat))
        | .ref i => (s.cfg.ref.getD i.toNat 0 : Int)
        | .rise p => (((s.rise.at? p).getD 0).toNat : Int)
        | .fall p => (((s.fall.at? p).getD 0).toNat : Int),
      { s with rdata := b, cmpStb := false })) ∧
    ∀ (e1 e2 : Instr) (s' t u : State), e1.slot = .event → e2.slot = .event → s'.cfg = s.cfg →
      runWord (encodePair e1 r.low) s = .next t → runWord (encodePair e2 r.high) s' = .next u →
      r.result t.rdata u.rdata =
        (match r with
          | .scaled _ =>
            BitVec.toInt ((r.pattern u).extractLsb' 8 8 ++ (r.pattern t).extractLsb' 0 8)
          | .ref i => (s.cfg.ref.getD i.toNat 0 : Int)
          | .rise _ =>
            (((r.pattern u).extractLsb' 8 8 ++ (r.pattern t).extractLsb' 0 8).toNat : Int)
          | .fall _ =>
            (((r.pattern u).extractLsb' 8 8 ++ (r.pattern t).extractLsb' 0 8).toNat : Int))
end

