-- ==== Sys2Proof/Laws/Config.lean ====
section
/-! SUPPORT. The fixture FX and the configuration of the machine at reset are legal. -/

namespace Sys2Proof.Config

/-- FX meets every constraint of 00_scope.md R7, as R8 says. -/
theorem fixture_legal : fixture.Legal := by
  refine ⟨by decide, ⟨by decide, ?_, ?_, ?_, ?_, ?_⟩, ?_⟩
  · change (1 : Int) ≤ ⌊(3000 : Rat) / (300 : Nat)⌋
    norm_num
  · change ⌊(3000 : Rat) / (20 : Nat)⌋ ≤ 255
    norm_num
  all_goals norm_num [fixture, MinFreqAtMinAmp]

/-- The configuration of the machine at reset is legal, whatever the OPEN parameters are. -/
theorem machine_legal : machine.Legal := by
  unfold machine
  split
  · assumption
  · exact fixture_legal

@[simp] theorem machine_n : machine.n = 15 := rfl

end Sys2Proof.Config
end

