-- ==== Sys2Proof/Laws/Decode.lean ====
section
/-! SUPPORT. The fields of a word put together from fields, and the operand fields of an address. -/

namespace Sys2Proof

/-! ### Fields of a disjunction -/

@[simp] theorem wordRst_or (v w : Word) : wordRst (v ||| w) = (wordRst v || wordRst w) := by
  simp [wordRst]
@[simp] theorem wordOvf_or (v w : Word) : wordOvf (v ||| w) = (wordOvf v || wordOvf w) := by
  simp [wordOvf]
@[simp] theorem wordHv_or (v w : Word) : wordHv (v ||| w) = (wordHv v || wordHv w) := by
  simp [wordHv]
@[simp] theorem wordWe_or (v w : Word) : wordWe (v ||| w) = (wordWe v || wordWe w) := by
  simp [wordWe]
@[simp] theorem wordAddr_or (v w : Word) : wordAddr (v ||| w) = wordAddr v ||| wordAddr w := by
  simp only [wordAddr, BitVec.extractLsb'_or]
@[simp] theorem wordData_or (v w : Word) : wordData (v ||| w) = wordData v ||| wordData w := by
  simp only [wordData, BitVec.extractLsb'_or]

/-! ### Fields of one field -/

@[simp] theorem wordData_atData (d : Byte) : wordData (atData d) = d := by
  revert d; decide
@[simp] theorem wordAddr_atData (d : Byte) : wordAddr (atData d) = 0 := by
  revert d; decide
@[simp] theorem wordRst_atData (d : Byte) : wordRst (atData d) = false := by simp [wordRst, atData]
@[simp] theorem wordOvf_atData (d : Byte) : wordOvf (atData d) = false := by simp [wordOvf, atData]
@[simp] theorem wordHv_atData (d : Byte) : wordHv (atData d) = false := by simp [wordHv, atData]
@[simp] theorem wordWe_atData (d : Byte) : wordWe (atData d) = false := by simp [wordWe, atData]

@[simp] theorem wordAddr_atAddr (a : Byte) : wordAddr (atAddr a) = a := by
  revert a; decide
@[simp] theorem wordData_atAddr (a : Byte) : wordData (atAddr a) = 0 := by
  revert a; decide
@[simp] theorem wordRst_atAddr (a : Byte) : wordRst (atAddr a) = false := by
  revert a; decide
@[simp] theorem wordOvf_atAddr (a : Byte) : wordOvf (atAddr a) = false := by
  revert a; decide
@[simp] theorem wordHv_atAddr (a : Byte) : wordHv (atAddr a) = false := by
  revert a; decide
@[simp] theorem wordWe_atAddr (a : Byte) : wordWe (atAddr a) = false := by
  revert a; decide

@[simp] theorem wordAddr_atIndex (i : BitVec 5) : wordAddr (atIndex i) = i.setWidth 8 <<< 1 := by
  revert i; decide
@[simp] theorem wordData_atIndex (i : BitVec 5) : wordData (atIndex i) = 0 := by
  revert i; decide
@[simp] theorem wordRst_atIndex (i : BitVec 5) : wordRst (atIndex i) = false := by
  revert i; decide
@[simp] theorem wordOvf_atIndex (i : BitVec 5) : wordOvf (atIndex i) = false := by
  revert i; decide
@[simp] theorem wordHv_atIndex (i : BitVec 5) : wordHv (atIndex i) = false := by
  revert i; decide
@[simp] theorem wordWe_atIndex (i : BitVec 5) : wordWe (atIndex i) = false := by
  revert i; decide

@[simp] theorem wordAddr_atPhase (p : BitVec 2) : wordAddr (atPhase p) = p.setWidth 8 <<< 2 := by
  revert p; decide
@[simp] theorem wordData_atPhase (p : BitVec 2) : wordData (atPhase p) = 0 := by
  revert p; decide
@[simp] theorem wordRst_atPhase (p : BitVec 2) : wordRst (atPhase p) = false := by
  revert p; decide
@[simp] theorem wordOvf_atPhase (p : BitVec 2) : wordOvf (atPhase p) = false := by
  revert p; decide
@[simp] theorem wordHv_atPhase (p : BitVec 2) : wordHv (atPhase p) = false := by
  revert p; decide
@[simp] theorem wordWe_atPhase (p : BitVec 2) : wordWe (atPhase p) = false := by
  revert p; decide

/-! ### The address of a table byte and of a threshold byte (30_encoding.md R75) -/

/-- The address of a byte of entry `i` of window `b`: it has that window, index and byte select. -/
theorem entryAddr_fields : ∀ (i : BitVec 5),
    (addrWindow (0x40 ||| i.setWidth 8 <<< 1) = 0b01 ∧
      addrIndex (0x40 ||| i.setWidth 8 <<< 1) = i ∧
      addrHigh (0x40 ||| i.setWidth 8 <<< 1) = false) ∧
    (addrWindow (0x41 ||| i.setWidth 8 <<< 1) = 0b01 ∧
      addrIndex (0x41 ||| i.setWidth 8 <<< 1) = i ∧
      addrHigh (0x41 ||| i.setWidth 8 <<< 1) = true) ∧
    (addrWindow (0x80 ||| i.setWidth 8 <<< 1) = 0b10 ∧
      addrIndex (0x80 ||| i.setWidth 8 <<< 1) = i ∧
      addrHigh (0x80 ||| i.setWidth 8 <<< 1) = false) ∧
    addrWindow (0x81 ||| i.setWidth 8 <<< 1) = 0b10 ∧
      addrIndex (0x81 ||| i.setWidth 8 <<< 1) = i ∧
      addrHigh (0x81 ||| i.setWidth 8 <<< 1) = true := by
  decide

end Sys2Proof
end

