-- ==== Sys2Proof/Laws/Memory.lean ====
section
/-! SUPPORT. What reading and writing memory does, and that every write keeps the canonical form. -/

namespace Sys2Proof.Machine

@[simp] theorem Memory.read_nil (a : Nat) : Memory.read [] a = 0 := rfl

theorem Memory.read_cons (b : Nat) (v : Byte) (m : Memory) (a : Nat) :
    Memory.read ((b, v) :: m) a = if a = b then v else Memory.read m a := rfl

@[simp] theorem Memory.wf_nil : Memory.wf [] = true := rfl

theorem Memory.wf_cons {a : Nat} {v : Byte} {m : Memory} :
    Memory.wf ((a, v) :: m) = true ↔ v ≠ 0 ∧ Memory.above a m = true ∧ Memory.wf m = true := by
  simp [Memory.wf, and_assoc]

theorem Memory.above_cons {a b : Nat} {v : Byte} {m : Memory} :
    Memory.above a ((b, v) :: m) = true ↔ a < b ∧ Memory.above a m = true := by
  simp [Memory.above]

theorem Memory.above_trans {a b : Nat} {m : Memory} (h : a ≤ b) (hb : Memory.above b m = true) :
    Memory.above a m = true := by
  simp only [Memory.above, List.all_eq_true, decide_eq_true_eq] at hb ⊢
  exact fun c hc => lt_of_le_of_lt h (hb c hc)

theorem Memory.read_of_above {a b : Nat} {m : Memory} (hm : Memory.above b m = true) (h : a ≤ b) :
    Memory.read m a = 0 := by
  induction m with
  | nil => rfl
  | cons c m ih =>
    obtain ⟨d, v⟩ := c
    obtain ⟨hd, hm⟩ := Memory.above_cons.mp hm
    simp [Memory.read_cons, ih hm, show a ≠ d by omega]

theorem Memory.above_write {a b : Nat} {v : Byte} {m : Memory} (hb : b < a)
    (hm : Memory.above b m = true) : Memory.above b (Memory.write m a v) = true := by
  induction m with
  | nil => unfold Memory.write; split <;> simp [Memory.above, hb]
  | cons c m ih =>
    obtain ⟨d, u⟩ := c
    obtain ⟨hd, hm⟩ := Memory.above_cons.mp hm
    unfold Memory.write
    split_ifs <;> simp_all [Memory.above_cons]

/-- Every write keeps the canonical form. -/
theorem Memory.wf_write {m : Memory} (a : Nat) (v : Byte) (hm : Memory.wf m = true) :
    Memory.wf (Memory.write m a v) = true := by
  induction m with
  | nil => unfold Memory.write; split <;> simp_all [Memory.wf, Memory.above]
  | cons c m ih =>
    obtain ⟨d, u⟩ := c
    obtain ⟨hu, hab, hm'⟩ := Memory.wf_cons.mp hm
    unfold Memory.write
    split_ifs with h1 h2 h3 h4
    · exact hm
    · exact Memory.wf_cons.mpr ⟨h2, Memory.above_cons.mpr ⟨h1, Memory.above_trans h1.le hab⟩, hm⟩
    · exact hm'
    · exact Memory.wf_cons.mpr ⟨h4, h3 ▸ hab, hm'⟩
    · exact Memory.wf_cons.mpr ⟨hu, Memory.above_write (by omega) hab, ih hm'⟩

theorem Memory.inTable_cons {n a : Nat} {v : Byte} {m : Memory} :
    Memory.inTable n ((a, v) :: m) = true ↔
      (0x40 ≤ a ∧ a < 0x40 + 2 * n) ∧ Memory.inTable n m = true := by
  simp [Memory.inTable]

/-- A write inside the scaled table lists nothing outside it. -/
theorem Memory.inTable_write {n : Nat} {m : Memory} {a : Nat} (v : Byte) (h1 : 0x40 ≤ a)
    (h2 : a < 0x40 + 2 * n) (hm : Memory.inTable n m = true) :
    Memory.inTable n (Memory.write m a v) = true := by
  induction m with
  | nil => unfold Memory.write; split <;> simp_all [Memory.inTable]
  | cons c m ih =>
    obtain ⟨d, u⟩ := c
    have hc := Memory.inTable_cons.mp hm
    unfold Memory.write
    split_ifs
    · exact hm
    · exact Memory.inTable_cons.mpr ⟨⟨h1, h2⟩, hm⟩
    · exact hc.2
    · exact Memory.inTable_cons.mpr ⟨⟨h1, h2⟩, hc.2⟩
    · exact Memory.inTable_cons.mpr ⟨hc.1, ih hc.2⟩

/-- A read after a write to the same address gives the value written. -/
theorem Memory.read_write_same {m : Memory} (a : Nat) (v : Byte) (hm : Memory.wf m = true) :
    Memory.read (Memory.write m a v) a = v := by
  induction m with
  | nil => unfold Memory.write; split <;> simp_all [Memory.read_cons]
  | cons c m ih =>
    obtain ⟨d, u⟩ := c
    obtain ⟨hu, hab, hm'⟩ := Memory.wf_cons.mp hm
    unfold Memory.write
    split_ifs with h1 h2 h3 h4
    · rw [Memory.read_cons, if_neg (by omega), h2, Memory.read_of_above hab h1.le]
    · simp [Memory.read_cons]
    · subst h3; rw [h4, Memory.read_of_above hab le_rfl]
    · simp [Memory.read_cons]
    · simp [Memory.read_cons, h3, ih hm']

/-- A write leaves every other address alone. -/
theorem Memory.read_write_other {m : Memory} {a b : Nat} (v : Byte) (h : b ≠ a) :
    Memory.read (Memory.write m a v) b = Memory.read m b := by
  induction m with
  | nil => unfold Memory.write; split <;> simp_all [Memory.read_cons]
  | cons c m ih =>
    obtain ⟨d, u⟩ := c
    unfold Memory.write
    split_ifs with h1 h2 h3 h4 <;> simp_all [Memory.read_cons]

/-- Writing the same byte twice is writing it once (20_memory.md R55 item 5). -/
theorem Memory.write_write_same {m : Memory} (a : Nat) (v : Byte) (hm : Memory.wf m = true) :
    Memory.write (Memory.write m a v) a v = Memory.write m a v := by
  induction m with
  | nil => by_cases h : v = 0#8 <;> simp [Memory.write, h]
  | cons c m ih =>
    obtain ⟨d, u⟩ := c
    obtain ⟨-, hab, hm'⟩ := Memory.wf_cons.mp hm
    rcases lt_trichotomy a d with h1 | rfl | h1
    · by_cases h : v = 0#8 <;> simp [Memory.write, h1, h]
    · by_cases h : v = 0#8
      · subst h
        cases m with
        | nil => simp [Memory.write]
        | cons e m => simp [Memory.write, (Memory.above_cons.mp hab).1]
      · simp [Memory.write, h]
    · simp [Memory.write, h1.not_gt, h1.ne', ih hm']

/-- What a byte reads as after a write. -/
theorem Memory.read_write {m : Memory} (a b : Nat) (v : Byte) (hm : Memory.wf m = true) :
    Memory.read (Memory.write m a v) b = if b = a then v else Memory.read m b := by
  split_ifs with h
  · rw [h, Memory.read_write_same a v hm]
  · exact Memory.read_write_other v h

end Sys2Proof.Machine
end

