-- ==== Sys2Proof/Laws/State.lean ====
section
/-! SUPPORT. One lemma per field per update. -/

namespace Sys2Proof.Machine

/-! ### stop -/

@[simp] theorem stop_cfg (s : State) : (stop s).cfg = s.cfg := rfl
@[simp] theorem stop_drive (s : State) : (stop s).drive = .disabled := rfl
@[simp] theorem stop_dir (s : State) : (stop s).dir = s.dir := rfl
@[simp] theorem stop_divtgt (s : State) : (stop s).divtgt = s.divtgt := rfl
@[simp] theorem stop_cnt (s : State) : (stop s).cnt = 0 := rfl
@[simp] theorem stop_idx (s : State) : (stop s).idx = initIdx s.cfg.n s.dir := rfl
@[simp] theorem stop_mem (s : State) : (stop s).mem = s.mem := rfl
@[simp] theorem stop_rise (s : State) : (stop s).rise = PerPhase.const 0 := rfl
@[simp] theorem stop_fall (s : State) : (stop s).fall = PerPhase.const 0 := rfl
@[simp] theorem stop_rdata (s : State) : (stop s).rdata = s.rdata := rfl
@[simp] theorem stop_cmpStb (s : State) : (stop s).cmpStb = s.cmpStb := rfl
@[simp] theorem stop_input (s : State) : (stop s).input = s.input := rfl
@[simp] theorem stop_envPos (s : State) : (stop s).envPos = s.envPos := rfl

/-! ### swapDirection -/

@[simp] theorem swapDirection_cfg (s : State) : (swapDirection s).cfg = s.cfg := rfl
@[simp] theorem swapDirection_drive (s : State) : (swapDirection s).drive = s.drive := rfl
@[simp] theorem swapDirection_dir (s : State) : (swapDirection s).dir = s.dir.flip := rfl
@[simp] theorem swapDirection_divtgt (s : State) : (swapDirection s).divtgt = s.divtgt := rfl
@[simp] theorem swapDirection_cnt (s : State) : (swapDirection s).cnt = s.cnt := rfl
@[simp] theorem swapDirection_idx (s : State) : (swapDirection s).idx = s.idx.swap12 := rfl
@[simp] theorem swapDirection_mem (s : State) : (swapDirection s).mem = s.mem := rfl
@[simp] theorem swapDirection_rise (s : State) : (swapDirection s).rise = s.rise := rfl
@[simp] theorem swapDirection_fall (s : State) : (swapDirection s).fall = s.fall := rfl
@[simp] theorem swapDirection_rdata (s : State) : (swapDirection s).rdata = s.rdata := rfl
@[simp] theorem swapDirection_cmpStb (s : State) : (swapDirection s).cmpStb = s.cmpStb := rfl
@[simp] theorem swapDirection_input (s : State) : (swapDirection s).input = s.input := rfl
@[simp] theorem swapDirection_envPos (s : State) : (swapDirection s).envPos = s.envPos := rfl

/-! ### resetBlock -/

@[simp] theorem resetBlock_cfg (s : State) : (resetBlock s).cfg = s.cfg := rfl
@[simp] theorem resetBlock_drive (s : State) : (resetBlock s).drive = .uninitialized := rfl
@[simp] theorem resetBlock_dir (s : State) : (resetBlock s).dir = .forward := rfl
@[simp] theorem resetBlock_divtgt (s : State) : (resetBlock s).divtgt = 0xFF := rfl
@[simp] theorem resetBlock_cnt (s : State) : (resetBlock s).cnt = 0 := rfl
@[simp] theorem resetBlock_idx (s : State) : (resetBlock s).idx = initIdx s.cfg.n .forward := rfl
@[simp] theorem resetBlock_mem (s : State) : (resetBlock s).mem = [] := rfl
@[simp] theorem resetBlock_rise (s : State) : (resetBlock s).rise = PerPhase.const 0 := rfl
@[simp] theorem resetBlock_fall (s : State) : (resetBlock s).fall = PerPhase.const 0 := rfl
@[simp] theorem resetBlock_rdata (s : State) : (resetBlock s).rdata = 0 := rfl
@[simp] theorem resetBlock_cmpStb (s : State) : (resetBlock s).cmpStb = false := rfl
@[simp] theorem resetBlock_input (s : State) : (resetBlock s).input = s.input := rfl
@[simp] theorem resetBlock_envPos (s : State) : (resetBlock s).envPos = s.envPos := rfl

/-! ### setTbl -/

@[simp] theorem setTbl_cfg (s : State) (j : Nat) (v : Byte) : (s.setTbl j v).cfg = s.cfg := rfl
@[simp] theorem setTbl_drive (s : State) (j : Nat) (v : Byte) : (s.setTbl j v).drive = s.drive := rfl
@[simp] theorem setTbl_dir (s : State) (j : Nat) (v : Byte) : (s.setTbl j v).dir = s.dir := rfl
@[simp] theorem setTbl_divtgt (s : State) (j : Nat) (v : Byte) : (s.setTbl j v).divtgt = s.divtgt := rfl
@[simp] theorem setTbl_cnt (s : State) (j : Nat) (v : Byte) : (s.setTbl j v).cnt = s.cnt := rfl
@[simp] theorem setTbl_idx (s : State) (j : Nat) (v : Byte) : (s.setTbl j v).idx = s.idx := rfl
@[simp] theorem setTbl_mem (s : State) (j : Nat) (v : Byte) : (s.setTbl j v).mem = Memory.write s.mem (tblAddr j) v := rfl
@[simp] theorem setTbl_rise (s : State) (j : Nat) (v : Byte) : (s.setTbl j v).rise = s.rise := rfl
@[simp] theorem setTbl_fall (s : State) (j : Nat) (v : Byte) : (s.setTbl j v).fall = s.fall := rfl
@[simp] theorem setTbl_rdata (s : State) (j : Nat) (v : Byte) : (s.setTbl j v).rdata = s.rdata := rfl
@[simp] theorem setTbl_cmpStb (s : State) (j : Nat) (v : Byte) : (s.setTbl j v).cmpStb = s.cmpStb := rfl
@[simp] theorem setTbl_input (s : State) (j : Nat) (v : Byte) : (s.setTbl j v).input = s.input := rfl
@[simp] theorem setTbl_envPos (s : State) (j : Nat) (v : Byte) : (s.setTbl j v).envPos = s.envPos := rfl

/-! ### presentWord -/

@[simp] theorem presentWord_cfg (s : State) (w : Word) : (presentWord s w).cfg = s.cfg := rfl
@[simp] theorem presentWord_drive (s : State) (w : Word) : (presentWord s w).drive = s.drive := rfl
@[simp] theorem presentWord_dir (s : State) (w : Word) : (presentWord s w).dir = s.dir := rfl
@[simp] theorem presentWord_divtgt (s : State) (w : Word) : (presentWord s w).divtgt = s.divtgt := rfl
@[simp] theorem presentWord_cnt (s : State) (w : Word) : (presentWord s w).cnt = s.cnt := rfl
@[simp] theorem presentWord_idx (s : State) (w : Word) : (presentWord s w).idx = s.idx := rfl
@[simp] theorem presentWord_mem (s : State) (w : Word) : (presentWord s w).mem = s.mem := rfl
@[simp] theorem presentWord_rise (s : State) (w : Word) : (presentWord s w).rise = s.rise := rfl
@[simp] theorem presentWord_fall (s : State) (w : Word) : (presentWord s w).fall = s.fall := rfl
@[simp] theorem presentWord_rdata (s : State) (w : Word) : (presentWord s w).rdata = s.rdata := rfl
@[simp] theorem presentWord_cmpStb (s : State) (w : Word) : (presentWord s w).cmpStb = s.cmpStb := rfl
@[simp] theorem presentWord_input (s : State) (w : Word) : (presentWord s w).input = w :: s.input := rfl
@[simp] theorem presentWord_envPos (s : State) (w : Word) : (presentWord s w).envPos = s.envPos := rfl

/-! ### tickState -/

@[simp] theorem tickState_cfg (s : State) : (tickState s).cfg = s.cfg := rfl
@[simp] theorem tickState_drive (s : State) : (tickState s).drive = s.drive := rfl
@[simp] theorem tickState_dir (s : State) : (tickState s).dir = s.dir := rfl
@[simp] theorem tickState_divtgt (s : State) : (tickState s).divtgt = s.divtgt := rfl
@[simp] theorem tickState_cnt (s : State) : (tickState s).cnt = s.cnt := rfl
@[simp] theorem tickState_idx (s : State) : (tickState s).idx = (useIdx s).map fun i => i + 1 := rfl
@[simp] theorem tickState_mem (s : State) : (tickState s).mem = s.mem := rfl
@[simp] theorem tickState_rise (s : State) : (tickState s).rise = (useIdx s).map fun i => trunc16 (deadTime s.cfg (s.sample i)).1 := rfl
@[simp] theorem tickState_fall (s : State) : (tickState s).fall = (useIdx s).map fun i => trunc16 (deadTime s.cfg (s.sample i)).2 := rfl
@[simp] theorem tickState_rdata (s : State) : (tickState s).rdata = s.rdata := rfl
@[simp] theorem tickState_cmpStb (s : State) : (tickState s).cmpStb = s.cmpStb := rfl
@[simp] theorem tickState_input (s : State) : (tickState s).input = s.input := rfl
@[simp] theorem tickState_envPos (s : State) : (tickState s).envPos = s.envPos := rfl

/-! ### PerPhase -/

@[simp] theorem PerPhase.map_ph0 {α β : Type} (f : α → β) (x : PerPhase α) : (x.map f).ph0 = f x.ph0 := rfl
@[simp] theorem PerPhase.map_ph1 {α β : Type} (f : α → β) (x : PerPhase α) : (x.map f).ph1 = f x.ph1 := rfl
@[simp] theorem PerPhase.map_ph2 {α β : Type} (f : α → β) (x : PerPhase α) : (x.map f).ph2 = f x.ph2 := rfl
@[simp] theorem PerPhase.const_ph0 {α : Type} (v : α) : (PerPhase.const v).ph0 = v := rfl
@[simp] theorem PerPhase.const_ph1 {α : Type} (v : α) : (PerPhase.const v).ph1 = v := rfl
@[simp] theorem PerPhase.const_ph2 {α : Type} (v : α) : (PerPhase.const v).ph2 = v := rfl
@[simp] theorem PerPhase.swap12_ph0 {α : Type} (x : PerPhase α) : x.swap12.ph0 = x.ph0 := rfl
@[simp] theorem PerPhase.swap12_ph1 {α : Type} (x : PerPhase α) : x.swap12.ph1 = x.ph2 := rfl
@[simp] theorem PerPhase.swap12_ph2 {α : Type} (x : PerPhase α) : x.swap12.ph2 = x.ph1 := rfl
@[simp] theorem useIdx_ph0 (s : State) : (useIdx s).ph0 = wrapIndex s.cfg.n s.idx.ph0 := rfl
@[simp] theorem useIdx_ph1 (s : State) : (useIdx s).ph1 = wrapIndex s.cfg.n s.idx.ph1 := rfl
@[simp] theorem useIdx_ph2 (s : State) : (useIdx s).ph2 = wrapIndex s.cfg.n s.idx.ph2 := rfl
@[simp] theorem Dir.flip_flip (d : Dir) : d.flip.flip = d := by cases d <;> rfl

/-- Exchanging the offsets of phases 1 and 2 is taking the other direction's (10_state.md R28). -/
@[simp] theorem initIdx_swap12 (n : Nat) (d : Dir) : (initIdx n d).swap12 = initIdx n d.flip := by
  cases d <;> rfl

end Sys2Proof.Machine
end

