-- ==== Sys2Proof/Laws/Ops.lean ====
section
/-! SUPPORT. What each shared operation can do, once. -/

namespace Sys2Proof.Machine

/-! ### Sequencing -/

@[simp] theorem andThen_next (s : State) (f : State → Result) : andThen (.next s) f = f s := rfl
@[simp] theorem andThen_fault (e : Fault) (f : State → Result) :
    andThen (.fault e) f = .fault e := rfl
@[simp] theorem andThen_refused (e : Refusal) (f : State → Result) :
    andThen (.refused e) f = .refused e := rfl

/-- A sequence answers a next state exactly if both parts do. -/
theorem andThen_eq_next {r : Result} {f : State → Result} {t : State} :
    andThen r f = .next t ↔ ∃ m, r = .next m ∧ f m = .next t := by
  cases r <;> simp

@[simp] theorem andThen_pure (r : Result) : andThen r .next = r := by cases r <;> rfl

@[simp] theorem finishRead_eq (s : State) (b : Byte) :
    finishRead s b = .next { s with rdata := b } := rfl
@[simp] theorem finishHost_eq (s : State) : finishHost s = .next { s with rdata := 0 } := rfl
@[simp] theorem finishEvent_eq (s : State) (b : Bool) :
    finishEvent s b = .next { s with cmpStb := b } := rfl

/-! ### Bytes -/

theorem lowByte_toNat (v : Half) : (lowByte v).toNat = v.toNat % 256 := by
  simp [lowByte, BitVec.extractLsb'_toNat]

theorem highByte_toNat (v : Half) : (highByte v).toNat = v.toNat / 256 := by
  have := v.isLt
  simp only [highByte, BitVec.extractLsb'_toNat, Nat.shiftRight_eq_div_pow]
  omega

theorem joinBytes_toNat (hi lo : Byte) : (joinBytes hi lo).toNat = hi.toNat * 256 + lo.toNat := by
  have h : (hi ++ lo).toNat = (hi.toNat <<< 8) ||| lo.toNat := BitVec.toNat_append hi lo
  rw [joinBytes, h, ← Nat.shiftLeft_add_eq_or_of_lt lo.isLt, Nat.shiftLeft_eq]

/-- A half-word is its high byte above its low byte (20_memory.md R53). -/
theorem joinBytes_high_low (v : Half) : joinBytes (highByte v) (lowByte v) = v := by
  apply BitVec.eq_of_toNat_eq
  rw [joinBytes_toNat, highByte_toNat, lowByte_toNat]
  omega

@[simp] theorem highByte_joinBytes (a b : Byte) : highByte (joinBytes a b) = a := by
  have := b.isLt
  apply BitVec.eq_of_toNat_eq
  rw [highByte_toNat, joinBytes_toNat]
  omega

@[simp] theorem lowByte_joinBytes (a b : Byte) : lowByte (joinBytes a b) = b := by
  have := b.isLt
  apply BitVec.eq_of_toNat_eq
  rw [lowByte_toNat, joinBytes_toNat]
  omega

/-- A value of 16 bits is stored as it is: "No truncation ever occurs" (43_pwm_output_driver.md R141). -/
theorem trunc16_toNat {z : Int} (h0 : 0 ≤ z) (h1 : z ≤ 65535) : ((trunc16 z).toNat : Int) = z := by
  unfold trunc16
  rw [BitVec.toNat_ofInt]
  omega

/-- A 16-bit signed number (00_scope.md R9). -/
theorem sext16_bounds (v : Half) : -32768 ≤ sext16 v ∧ sext16 v ≤ 32767 := by
  unfold sext16
  have h1 := BitVec.le_toInt v
  have h2 := BitVec.toInt_le (x := v)
  norm_num at h1 h2
  omega

/-! ### The scaled table -/

/-- What a byte of the table holds after a write of a byte of it. -/
theorem setTbl_tbl {s : State} (j k : Nat) (v : Byte) (h : Memory.wf s.mem = true) :
    (s.setTbl j v).tbl k = if k = j then v else s.tbl k := by
  unfold State.tbl
  rw [setTbl_mem, Memory.read_write _ _ _ h]
  simp [tblAddr]

@[simp] theorem entryByte_low (i : Nat) : entryByte i false = 2 * i := rfl
@[simp] theorem entryByte_high (i : Nat) : entryByte i true = 2 * i + 1 := rfl

/-- A write of a byte of entry `i < N` is a write of that byte of the table. -/
theorem setScaledByte_of_lt {s : State} {i : BitVec 5} (high : Bool) (d : Byte)
    (h : i.toNat < s.cfg.n) :
    setScaledByte s i high d = s.setTbl (entryByte i.toNat high) d := if_pos h

/-- A write of a byte of an entry that does not exist does nothing. -/
theorem setScaledByte_of_le {s : State} {i : BitVec 5} (high : Bool) (d : Byte)
    (h : s.cfg.n ≤ i.toNat) : setScaledByte s i high d = s := if_neg (by omega)

/-! ### The output driver -/

/-- The rising threshold of any sample (43_pwm_output_driver.md R141, R142). -/
theorem deadTimeRising_bounds {c : Config} (v : Int) (h : v ≤ 32767) (hs : c.deadSub ≤ 32767) :
    0 ≤ deadTimeRising c v ∧ deadTimeRising c v ≤ 32767 - c.deadSub ∧
      (deadTimeRising c v = 0 ∨ (c.minPulse : Int) ≤ deadTimeRising c v) := by
  unfold deadTimeRising
  split <;> omega

/-! ### The tick -/

/-- The lazy wrap gives an index that can be read (44_phase_index_tracker.md R150 line 1). -/
theorem wrapIndex_lt {n i : Nat} (hn : 0 < n) (hi : i ≤ n) : wrapIndex n i < n := by
  unfold wrapIndex
  split <;> omega

/-- A wrapped index that cannot be read was above `N`. -/
theorem le_of_wrapIndex_lt {n i : Nat} (h : wrapIndex n i < n) : i ≤ n := by
  unfold wrapIndex at h
  split at h <;> omega

/-- With no index above `N` the tick completes. -/
theorem tick_eq_next {s : State} (hn : 0 < s.cfg.n) (h0 : s.idx.ph0 ≤ s.cfg.n)
    (h1 : s.idx.ph1 ≤ s.cfg.n) (h2 : s.idx.ph2 ≤ s.cfg.n) : tick s = .next (tickState s) := by
  unfold tick
  rw [if_pos]
  simp [PerPhase.all, wrapIndex_lt hn, h0, h1, h2]

/-- All a tick can do: complete with no index above `N`, or fault with one. -/
theorem tick_cases (s : State) :
    (tick s = .next (tickState s) ∧ 0 < s.cfg.n ∧ s.idx.ph0 ≤ s.cfg.n ∧ s.idx.ph1 ≤ s.cfg.n ∧
        s.idx.ph2 ≤ s.cfg.n) ∨
      (tick s = .fault .indexAboveN ∧ (s.cfg.n < s.idx.ph0 ∨ s.cfg.n < s.idx.ph1 ∨
        s.cfg.n < s.idx.ph2 ∨ s.cfg.n = 0)) := by
  by_cases h : (useIdx s).all (fun i => decide (i < s.cfg.n)) = true
  · left
    have h' := h
    simp only [PerPhase.all, useIdx_ph0, useIdx_ph1, useIdx_ph2, Bool.and_eq_true] at h'
    obtain ⟨⟨h0, h1⟩, h2⟩ := h'
    have h0 := of_decide_eq_true h0
    exact ⟨if_pos h, by omega, le_of_wrapIndex_lt h0, le_of_wrapIndex_lt (of_decide_eq_true h1),
      le_of_wrapIndex_lt (of_decide_eq_true h2)⟩
  · right
    refine ⟨if_neg h, ?_⟩
    by_contra hc
    push Not at hc
    exact h (by simp [PerPhase.all, wrapIndex_lt (Nat.pos_of_ne_zero hc.2.2.2), hc])

/-! ### The drive state machine -/

@[simp] theorem statusByte_resetBlock (s : State) : (resetBlock s).statusByte = 0x08 := by
  unfold State.statusByte
  simp [State.irqEn, State.tmrRun, State.outOff]
  decide
@[simp] theorem statusByte_stop (s : State) :
    (stop s).statusByte = if s.dir = .forward then 0x09 else 0x0D := by
  unfold State.statusByte
  cases h : s.dir <;> simp [h, State.irqEn, State.tmrRun, State.outOff] <;> decide

end Sys2Proof.Machine
end

