-- ==== Sys2Proof/Laws/Exec.lean ====
section
/-! SUPPORT. What each operation does, as an equation, and what a step does. -/

namespace Sys2Proof.Machine

variable (s : State)

@[simp] theorem exec_rst : exec .rst s = .next (resetBlock s) := rfl
@[simp] theorem exec_onop : exec .onop s = .next { s with cmpStb := false } := rfl
@[simp] theorem exec_hnop : exec .hnop s = .next { s with rdata := 0 } := rfl

/-- `CMD.INIT` completes from every state. -/
theorem exec_cmdInit : exec .cmdInit s =
    .next { (if s.drive = .uninitialized then stop s else s) with rdata := 0 } := by
  simp only [exec, execCmdInit]
  split <;> rfl

/-- `CMD.ENABLE` completes from every state. -/
theorem exec_cmdEnable : exec .cmdEnable s =
    .next { (if s.drive = .disabled then
      { s with cnt := 0, idx := initIdx s.cfg.n s.dir, drive := .running } else s) with
        rdata := 0 } := by
  simp only [exec, execCmdEnable]
  split <;> rfl

/-- `CMD.DISABLE` completes from every state. -/
theorem exec_cmdDisable : exec .cmdDisable s =
    .next { (if s.drive = .running then stop s else s) with rdata := 0 } := by
  simp only [exec, execCmdDisable]
  split <;> rfl

/-- `CMD.REVERSE` completes from every state. -/
theorem exec_cmdReverse : exec .cmdReverse s =
    .next { (if s.drive = .uninitialized then s
      else swapDirection (if s.drive = .running then stop s else s)) with rdata := 0 } := by
  simp only [exec, execCmdReverse]
  split <;> rfl

@[simp] theorem exec_wrDivtgt (d : Byte) :
    exec (.wrDivtgt d) s = .next { s with divtgt := d, rdata := 0 } := rfl
@[simp] theorem exec_wrScaledl (i : BitVec 5) (d : Byte) :
    exec (.wrScaledl i d) s = .next { setScaledByte s i false d with rdata := 0 } := rfl
@[simp] theorem exec_wrScaledh (i : BitVec 5) (d : Byte) :
    exec (.wrScaledh i d) s = .next { setScaledByte s i true d with rdata := 0 } := rfl
@[simp] theorem exec_rdStatus : exec .rdStatus s = .next { s with rdata := s.statusByte } := rfl
@[simp] theorem exec_rdDivtgt : exec .rdDivtgt s = .next { s with rdata := s.divtgt } := rfl
@[simp] theorem exec_rdCnt : exec .rdCnt s = .next { s with rdata := s.cnt } := rfl
@[simp] theorem exec_rdIdx0 :
    exec .rdIdx0 s = .next { s with rdata := BitVec.ofNat 8 s.idx.ph0 } := rfl
@[simp] theorem exec_rdIdx120 :
    exec .rdIdx120 s = .next { s with rdata := BitVec.ofNat 8 s.idx.ph1 } := rfl
@[simp] theorem exec_rdIdx240 :
    exec .rdIdx240 s = .next { s with rdata := BitVec.ofNat 8 s.idx.ph2 } := rfl
@[simp] theorem exec_rdRisel (p : BitVec 2) :
    exec (.rdRisel p) s = .next { s with rdata := thresholdByte s.rise p false } := rfl
@[simp] theorem exec_rdRiseh (p : BitVec 2) :
    exec (.rdRiseh p) s = .next { s with rdata := thresholdByte s.rise p true } := rfl
@[simp] theorem exec_rdFalll (p : BitVec 2) :
    exec (.rdFalll p) s = .next { s with rdata := thresholdByte s.fall p false } := rfl
@[simp] theorem exec_rdFallh (p : BitVec 2) :
    exec (.rdFallh p) s = .next { s with rdata := thresholdByte s.fall p true } := rfl
@[simp] theorem exec_rdScaledl (i : BitVec 5) :
    exec (.rdScaledl i) s = .next { s with rdata := scaledByte s i false } := rfl
@[simp] theorem exec_rdScaledh (i : BitVec 5) :
    exec (.rdScaledh i) s = .next { s with rdata := scaledByte s i true } := rfl
@[simp] theorem exec_rdRefl (i : BitVec 5) :
    exec (.rdRefl i) s = .next { s with rdata := refByte s i false } := rfl
@[simp] theorem exec_rdRefh (i : BitVec 5) :
    exec (.rdRefh i) s = .next { s with rdata := refByte s i true } := rfl
@[simp] theorem exec_hRsvdw (a d : Byte) : exec (.hRsvdw a d) s = .next { s with rdata := 0 } := rfl
@[simp] theorem exec_hRsvdr (a : Byte) : exec (.hRsvdr a) s = .next { s with rdata := 0 } := rfl

/-- All `OVF` can do: the event is lost, counts, ticks, or finds an index above `N`. -/
theorem exec_ovf_cases :
    (s.drive ≠ .running ∧ exec .ovf s = .next { s with cmpStb := false }) ∨
      (s.drive = .running ∧ s.cnt.toNat + 1 < s.divtgt.toNat ∧ exec .ovf s =
        .next { s with cnt := BitVec.ofNat 8 (s.cnt.toNat + 1), cmpStb := false }) ∨
      (s.drive = .running ∧ s.divtgt.toNat ≤ s.cnt.toNat + 1 ∧ 0 < s.cfg.n ∧
        s.idx.ph0 ≤ s.cfg.n ∧ s.idx.ph1 ≤ s.cfg.n ∧ s.idx.ph2 ≤ s.cfg.n ∧
        exec .ovf s = .next { tickState s with cnt := 0, cmpStb := true }) ∨
      (s.drive = .running ∧ s.divtgt.toNat ≤ s.cnt.toNat + 1 ∧
        (s.cfg.n < s.idx.ph0 ∨ s.cfg.n < s.idx.ph1 ∨ s.cfg.n < s.idx.ph2 ∨ s.cfg.n = 0) ∧
        exec .ovf s = .fault .indexAboveN) := by
  by_cases hr : s.drive = .running
  · by_cases hc : s.divtgt.toNat ≤ s.cnt.toNat + 1
    · have he : exec .ovf s =
          andThen (tick s) fun t => finishEvent { t with cnt := 0 } true := by
        simp only [exec, execOvf, if_pos hr, if_pos hc]
      rcases tick_cases s with ⟨ht, hn, h0, h1, h2⟩ | ⟨ht, hb⟩
      · exact .inr (.inr (.inl ⟨hr, hc, hn, h0, h1, h2, by rw [he, ht]; rfl⟩))
      · exact .inr (.inr (.inr ⟨hr, hc, hb, by rw [he, ht]; rfl⟩))
    · exact .inr (.inl ⟨hr, by omega, by simp only [exec, execOvf, if_pos hr, if_neg hc, finishEvent]⟩)
  · exact .inl ⟨hr, by simp only [exec, execOvf, if_neg hr, finishEvent]⟩

/-! ### Sequences and steps -/

@[simp] theorem runOps_nil : runOps [] s = .next s := rfl
@[simp] theorem runOps_cons (i : Instr) (is : List Instr) :
    runOps (i :: is) s = andThen (exec i s) (runOps is) := rfl

@[simp] theorem andThen_runOps_nil (r : Result) : andThen r (runOps []) = r := by cases r <;> rfl

/-- Running two sequences one after the other. -/
theorem runOps_append (is js : List Instr) :
    runOps (is ++ js) s = andThen (runOps is s) (runOps js) := by
  induction is generalizing s with
  | nil => rfl
  | cons i is ih => cases h : exec i s <;> simp [h, ih]

@[simp] theorem runWords_nil : runWords [] s = .next s := rfl
@[simp] theorem runWords_cons (w : Word) (ws : List Word) :
    runWords (w :: ws) s = andThen (runWord w s) (runWords ws) := rfl

/-- Running two sequences of words one after the other. -/
theorem runWords_append (vs ws : List Word) :
    runWords (vs ++ ws) s = andThen (runWords vs s) (runWords ws) := by
  induction vs generalizing s with
  | nil => rfl
  | cons v vs ih => cases h : runWord v s <;> simp [h, ih]

/-- A step runs the word it takes. -/
theorem step_eq : step s = runWord (inputWord s) (takeWord s) := rfl

@[simp] theorem takeWord_cfg : (takeWord s).cfg = s.cfg := by unfold takeWord; split <;> rfl

end Sys2Proof.Machine
end

