-- ==== Sys2Proof/Laws/PerInstr.lean ====
section
/-! SUPPORT. One lemma per operation: its canonical word has the fixed bits of its own row
(30_encoding.md R76, R80). -/

namespace Sys2Proof.Laws

/-- Fields outside a mask do not disturb the masked bits. -/
theorem or_and_eq {w f m v : Word} (hw : w &&& m = v) (hf : f &&& m = 0) : (w ||| f) &&& m = v := by
  have h : (w ||| f) &&& m = (w &&& m) ||| (f &&& m) := by
    ext j hj
    simp [Bool.and_or_distrib_right]
  rw [h, hw, hf]
  exact BitVec.or_zero

end Sys2Proof.Laws

namespace Sys2Proof.Laws.RowBits

/-- The canonical word of `i` has the fixed bits of the row of `i`. -/
def Statement (i : Instr) : Prop := i.matchesRow (encode i) = true

theorem rst : Statement .rst := by unfold Statement; decide
theorem ovf : Statement .ovf := by unfold Statement; decide
theorem onop : Statement .onop := by unfold Statement; decide
theorem hnop : Statement .hnop := by unfold Statement; decide
theorem cmdInit : Statement .cmdInit := by unfold Statement; decide
theorem cmdEnable : Statement .cmdEnable := by unfold Statement; decide
theorem cmdDisable : Statement .cmdDisable := by unfold Statement; decide
theorem cmdReverse : Statement .cmdReverse := by unfold Statement; decide
theorem wrDivtgt (d : Byte) : Statement (.wrDivtgt d) := by unfold Statement; revert d; decide
theorem wrScaledl (i : BitVec 5) (d : Byte) : Statement (.wrScaledl i d) :=
  beq_of_eq (or_and_eq (m := 0xBC100) (v := 0x34000) (by revert i; decide) (by revert d; decide))
theorem wrScaledh (i : BitVec 5) (d : Byte) : Statement (.wrScaledh i d) :=
  beq_of_eq (or_and_eq (m := 0xBC100) (v := 0x34100) (by revert i; decide) (by revert d; decide))
theorem rdStatus : Statement .rdStatus := by unfold Statement; decide
theorem rdDivtgt : Statement .rdDivtgt := by unfold Statement; decide
theorem rdCnt : Statement .rdCnt := by unfold Statement; decide
theorem rdIdx0 : Statement .rdIdx0 := by unfold Statement; decide
theorem rdIdx120 : Statement .rdIdx120 := by unfold Statement; decide
theorem rdIdx240 : Statement .rdIdx240 := by unfold Statement; decide
theorem rdRisel (p : BitVec 2) : Statement (.rdRisel p) := by unfold Statement; revert p; decide
theorem rdRiseh (p : BitVec 2) : Statement (.rdRiseh p) := by unfold Statement; revert p; decide
theorem rdFalll (p : BitVec 2) : Statement (.rdFalll p) := by unfold Statement; revert p; decide
theorem rdFallh (p : BitVec 2) : Statement (.rdFallh p) := by unfold Statement; revert p; decide
theorem rdScaledl (i : BitVec 5) : Statement (.rdScaledl i) := by unfold Statement; revert i; decide
theorem rdScaledh (i : BitVec 5) : Statement (.rdScaledh i) := by unfold Statement; revert i; decide
theorem rdRefl (i : BitVec 5) : Statement (.rdRefl i) := by unfold Statement; revert i; decide
theorem rdRefh (i : BitVec 5) : Statement (.rdRefh i) := by unfold Statement; revert i; decide
theorem hRsvdw (a d : Byte) : Statement (.hRsvdw a d) :=
  beq_of_eq (or_and_eq (m := 0xB0000) (v := 0x30000) (by revert a; decide) (by revert d; decide))
theorem hRsvdr (a : Byte) : Statement (.hRsvdr a) := by unfold Statement; revert a; decide

end Sys2Proof.Laws.RowBits
end

