-- ==== Sys2Proof/Laws/WideRead.lean ====
section
/-! SUPPORT. What the two operations of a 16-bit read return, and all a 16-bit read can answer. -/

namespace Sys2Proof.Machine

variable (s : State) (r : WideRead)

@[simp] theorem WideRead.pattern_rdata (b : Byte) :
    r.pattern { s with rdata := b } = r.pattern s := by cases r <;> rfl
@[simp] theorem WideRead.pattern_cmpStb (b : Bool) :
    r.pattern { s with cmpStb := b } = r.pattern s := by cases r <;> rfl

@[simp] theorem WideRead.result_scaled (i : BitVec 5) (a b : Byte) :
    (WideRead.scaled i).result a b = sext16 (readPair a b) := rfl
@[simp] theorem WideRead.result_ref (i : BitVec 5) (a b : Byte) :
    (WideRead.ref i).result a b = (readPair a b).toNat := rfl
@[simp] theorem WideRead.result_rise (p : BitVec 2) (a b : Byte) :
    (WideRead.rise p).result a b = (readPair a b).toNat := rfl
@[simp] theorem WideRead.result_fall (p : BitVec 2) (a b : Byte) :
    (WideRead.fall p).result a b = (readPair a b).toNat := rfl

/-- The two halves of one pattern join to it. -/
@[simp] theorem readPair_halves (v : Half) : readPair (lowByte v) (highByte v) = v :=
  joinBytes_high_low v

/-- A byte of the threshold of a phase that exists. -/
theorem thresholdByte_eq (x : PerPhase Half) {p : BitVec 2} (hp : p.toNat < 3) (high : Bool) :
    thresholdByte x p high = selectByte ((x.at? p).getD 0) high := by
  unfold thresholdByte
  match p, hp with
  | 0, _ => rfl
  | 1, _ => rfl
  | 2, _ => rfl

/-- The first operation returns the low byte of the field. -/
theorem WideRead.exec_low (h : r.low.wellFormed s.cfg.n = true) :
    exec r.low s = .next { s with rdata := lowByte (r.pattern s) } := by
  cases r <;> simp only [WideRead.low, Instr.wellFormed, decide_eq_true_eq] at h
  · simp [WideRead.low, WideRead.pattern, scaledByte, h, State.scaled]
  · simp [WideRead.low, WideRead.pattern, refByte, h, selectByte]
  · simp [WideRead.low, WideRead.pattern, thresholdByte_eq _ h, selectByte]
  · simp [WideRead.low, WideRead.pattern, thresholdByte_eq _ h, selectByte]

/-- The second operation returns the high byte of the field. -/
theorem WideRead.exec_high (h : r.low.wellFormed s.cfg.n = true) :
    exec r.high s = .next { s with rdata := highByte (r.pattern s) } := by
  cases r <;> simp only [WideRead.low, Instr.wellFormed, decide_eq_true_eq] at h
  · simp [WideRead.high, WideRead.pattern, scaledByte, h, State.scaled]
  · simp [WideRead.high, WideRead.pattern, refByte, h, selectByte]
  · simp [WideRead.high, WideRead.pattern, thresholdByte_eq _ h, selectByte]
  · simp [WideRead.high, WideRead.pattern, thresholdByte_eq _ h, selectByte]

/-- The address of the first operation is even (20_memory.md R53). -/
theorem WideRead.addr_even : r.addr.toNat % 2 = 0 := by
  cases r with
  | scaled i => revert i; decide
  | ref i => revert i; decide
  | rise p => revert p; decide
  | fall p => revert p; decide

/-- What a 16-bit read answers: the result of the two bytes its two words return. -/
theorem wideRead_eq_next {e1 e2 : Instr} {v : Int} {u : State} :
    wideRead r e1 e2 s = .next (v, u) ↔ ∃ t, runWord (encodePair e1 r.low) s = .next t ∧
      runWord (encodePair e2 r.high) t = .next u ∧ v = r.result t.rdata u.rdata := by
  constructor
  · intro h
    unfold wideRead at h
    split at h
    · next t ht =>
      split at h
      · next u' hu =>
        cases h
        exact ⟨t, ht, hu, rfl⟩
      all_goals cases h
    all_goals cases h
  · rintro ⟨t, ht, hu, rfl⟩
    simp only [wideRead, ht, hu]

end Sys2Proof.Machine
end

