-- ==== Sys2Proof/Tests/Slice0.lean ====
section
/-! SUPPORT. Tests against the vectors of 95_test_vectors.md (configuration FX), the WellFormed smoke
test, and one state for every statement that has hypotheses. -/

namespace Sys2Proof.Tests

open Sys2Proof Sys2Proof.Machine

/-! ### States -/

/-- The scaled table equal to `REF` of FX, bytes as 95_test_vectors.md section 2.3 `SETFREQ 300` writes
them, a `0x00` not listed. -/
def refTable : Memory :=
  [(0x42, 0x05), (0x44, 0x09), (0x46, 0x0A), (0x48, 0x19), (0x4A, 0x68), (0x4C, 0x69), (0x4E, 0xFA),
    (0x50, 0xF4), (0x51, 0x01), (0x52, 0xE8), (0x53, 0x03), (0x54, 0xE7), (0x55, 0x03)] ++
  [(0x56, 0x80), (0x57, 0x02), (0x58, 0x4D), (0x59, 0x01), (0x5A, 0x7F), (0x5C, 0x0F)]

/-- "Reset" of 95_test_vectors.md section 2.7. -/
def atReset : State := State.resetWith Config.fixture

/-- The end state of program P1, the start of 95_test_vectors.md section 2.2. -/
def endP1 : State :=
  { atReset with drive := .running, divtgt := 10, idx := ⟨1, 6, 11⟩, mem := refTable,
                 rise := ⟨0, 100, 995⟩, fall := ⟨8, 108, 1003⟩ }

/-- "Running*" of 95_test_vectors.md section 2.7. -/
def running : State :=
  { atReset with drive := .running, divtgt := 10, cnt := 3, idx := ⟨7, 12, 2⟩, mem := refTable,
                 rise := ⟨246, 329, 0⟩, fall := ⟨254, 337, 8⟩ }

/-- "Running-rev*" of 95_test_vectors.md section 2.7. -/
def runningRev : State := { running with dir := .reverse, idx := ⟨7, 2, 12⟩ }

/-- "Disabled-fwd" of 95_test_vectors.md section 2.7. -/
def disabledFwd : State := { atReset with drive := .disabled, mem := refTable }

/-- "Disabled-rev" of 95_test_vectors.md section 2.7. -/
def disabledRev : State := { disabledFwd with dir := .reverse, idx := ⟨0, 10, 5⟩ }

/-- "Running*" with `CNT` set to 9, so that the event ticks. -/
def aboutToTick : State := { running with cnt := 9 }

/-- Just enabled, in direction `d`. -/
def enabled (d : Dir) : State :=
  { atReset with drive := .running, divtgt := 3, dir := d, idx := initIdx 15 d, mem := refTable }

/-- A state no run reaches: an index above `N`. -/
def indexTooHigh : State := { aboutToTick with idx := ⟨16, 12, 2⟩ }

/-- A field of the state a word leaves. -/
def after {α : Type} (w : Word) (s : State) (f : State → α) : Option α :=
  match runWord w s with
  | .next t => some (f t)
  | _ => none

/-- The columns `STATE` to `STATUS` of 95_test_vectors.md section 2.7, the thresholds apart. -/
def row (s : State) : List Nat :=
  [(driveCode s.drive).toNat, (dirCode s.dir).toNat, s.cnt.toNat, s.idx.ph0, s.idx.ph1, s.idx.ph2,
    s.statusByte.toNat]

/-! ### WellFormed: each check refuses an ill-formed term -/

theorem test_wf_refuses_wrScaledl : (Instr.wrScaledl 15 0).wellFormed 15 = false := by decide
theorem test_wf_refuses_wrScaledh : (Instr.wrScaledh 31 0).wellFormed 15 = false := by decide
theorem test_wf_refuses_rdScaledl : (Instr.rdScaledl 15).wellFormed 15 = false := by decide
theorem test_wf_refuses_rdScaledh : (Instr.rdScaledh 15).wellFormed 15 = false := by decide
theorem test_wf_refuses_rdRefl : (Instr.rdRefl 15).wellFormed 15 = false := by decide
theorem test_wf_refuses_rdRefh : (Instr.rdRefh 15).wellFormed 15 = false := by decide
theorem test_wf_refuses_rdRisel : (Instr.rdRisel 3).wellFormed 15 = false := by decide
theorem test_wf_refuses_rdRiseh : (Instr.rdRiseh 3).wellFormed 15 = false := by decide
theorem test_wf_refuses_rdFalll : (Instr.rdFalll 3).wellFormed 15 = false := by decide
theorem test_wf_refuses_rdFallh : (Instr.rdFallh 3).wellFormed 15 = false := by decide
/-- `WR.DIVTGT`, a table write and a command are no reserved writes. -/
theorem test_wf_refuses_hRsvdw : (Instr.hRsvdw 0x02 0).wellFormed 15 = false ∧
    (Instr.hRsvdw 0x5D 0).wellFormed 15 = false ∧ (Instr.hRsvdw 0x00 4).wellFormed 15 = false := by
  decide
/-- `RD.STATUS`, a threshold read, a table read and a reference read are no reserved reads. -/
theorem test_wf_refuses_hRsvdr : (Instr.hRsvdr 0x01).wellFormed 15 = false ∧
    (Instr.hRsvdr 0x1B).wellFormed 15 = false ∧ (Instr.hRsvdr 0x40).wellFormed 15 = false ∧
    (Instr.hRsvdr 0x9D).wellFormed 15 = false := by decide
theorem test_wf_accepts_last_entry : (Instr.rdRefh 14).wellFormed 15 = true ∧
    (Instr.hRsvdr 0x1C).wellFormed 15 = true ∧ (Instr.hRsvdw 0x5E 1).wellFormed 15 = true := by decide

/-! ### Decoding: words of 95_test_vectors.md sections 2.1 to 2.3 -/

theorem test_decode_rst : decodeOps 15 0b10000000000000000000 = [.rst] ∧
    decodeOps 15 0xC0000 = [.rst] ∧ decodeOps 15 0xFFFFF = [.rst] := by decide
theorem test_decode_ovf_hnop : decodeOps 15 0b01000000000000000000 = [.ovf, .hnop] ∧
    decodeOps 15 0x5FFFF = [.ovf, .hnop] := by decide
theorem test_decode_onop : decodeOps 15 0b00000000000000000000 = [.onop, .hnop] ∧
    decodeOps 15 0x1FFFF = [.onop, .hnop] := by decide
theorem test_decode_cmdInit : decodeOps 15 0b00110000000000000001 = [.onop, .cmdInit] := by decide
theorem test_decode_cmdEnable : decodeOps 15 0b00110000000000000010 = [.onop, .cmdEnable] := by decide
theorem test_decode_cmdDisable : decodeOps 15 0b01110000000000000011 = [.ovf, .cmdDisable] := by decide
theorem test_decode_cmdReverse : decodeOps 15 0b00110000000000000100 = [.onop, .cmdReverse] := by decide
theorem test_decode_wrDivtgt : decodeOps 15 0b00110000001010010110 = [.onop, .wrDivtgt 150] := by decide
theorem test_decode_wrScaledl :
    decodeOps 15 0b00110100101001101000 = [.onop, .wrScaledl 5 0x68] := by decide
theorem test_decode_wrScaledh :
    decodeOps 15 0b00110101110100000000 = [.onop, .wrScaledh 14 0x00] := by decide
theorem test_decode_rdStatus : decodeOps 15 0b00100000000110101011 = [.onop, .rdStatus] := by decide
theorem test_decode_rdDivtgt : decodeOps 15 0b00100000001000000000 = [.onop, .rdDivtgt] := by decide
theorem test_decode_rdCnt : decodeOps 15 0b01100000001100000000 = [.ovf, .rdCnt] := by decide
theorem test_decode_rdIdx0 : decodeOps 15 0b00100000010000000000 = [.onop, .rdIdx0] := by decide
theorem test_decode_rdIdx120 : decodeOps 15 0b00100000010100000000 = [.onop, .rdIdx120] := by decide
theorem test_decode_rdIdx240 : decodeOps 15 0b00100000011000000000 = [.onop, .rdIdx240] := by decide
theorem test_decode_rdRisel : decodeOps 15 0b00100001010000000000 = [.onop, .rdRisel 1] := by decide
theorem test_decode_rdRiseh : decodeOps 15 0b00100001100100000000 = [.onop, .rdRiseh 2] := by decide
theorem test_decode_rdFalll : decodeOps 15 0b00100001011000000000 = [.onop, .rdFalll 1] := by decide
theorem test_decode_rdFallh : decodeOps 15 0b00100001101100000000 = [.onop, .rdFallh 2] := by decide
theorem test_decode_rdScaledl : decodeOps 15 0b00100101001000000000 = [.onop, .rdScaledl 9] := by decide
theorem test_decode_rdScaledh : decodeOps 15 0b00100100101100000000 = [.onop, .rdScaledh 5] := by decide
theorem test_decode_rdRefl : decodeOps 15 0b00101001001000000000 = [.onop, .rdRefl 9] := by decide
theorem test_decode_rdRefh : decodeOps 15 0b00101001010100000000 = [.onop, .rdRefh 10] := by decide
theorem test_decode_hRsvdw : decodeOps 15 0b00110000000000000101 = [.onop, .hRsvdw 0x00 0x05] ∧
    decodeOps 15 0x35E01 = [.onop, .hRsvdw 0x5E 0x01] ∧
    decodeOps 16 0x35E01 = [.onop, .wrScaledl 15 0x01] := by decide
theorem test_decode_hRsvdr : decodeOps 15 0b00100001110000000000 = [.onop, .hRsvdr 0x1C] ∧
    decodeOps 15 0x20002 = [.onop, .hRsvdr 0x00] ∧ decodeOps 15 0x2FF00 = [.onop, .hRsvdr 0xFF] := by
  decide
/-- The operation a word shows, at the table length of the machine at reset. -/
theorem test_decodeTableWord : decodeTableWord 24 0x34A68 = some (.wrScaledl 5 0x68) ∧
    decodeTableWord 24 0x40000 = some .ovf ∧ decodeTableWord 24 0x80000 = some .rst ∧
    decodeTableWord 24 0x29E00 = some (.hRsvdr 0x9E) := by decide
/-- A number of more than 20 bits is rejected by name. -/
theorem test_decodeNumber_rejects : decodeTableWord 24 0x100000 = none := by decide
/-- `WR.SCALED 3, -2` (40_host_access.md R111). -/
theorem test_wrScaledWords : wrScaledWords 3 (-2) = [0x346FE, 0x347FF] := by decide

/-! ### The operations -/

/-- Section 2.8: from "Running-rev*" the word `0xB0002` is `RST`. -/
theorem test_rst : after 0xB0002 runningRev row = some [0, 0, 0, 0, 5, 10, 0x08] ∧
    after 0xFFFFF runningRev (fun t => (t.divtgt, t.mem, t.rise.ph0, t.fall.ph2)) =
      some (0xFF, [], 0, 0) := by decide
/-- Section 2.7, "the tick alone". -/
theorem test_ovf_ticks : after 0x40000 aboutToTick row =
      some [2, 0, 0, 8, 13, 3, 0x32] ∧
    after 0x40000 aboutToTick (fun t => (t.rise, t.fall, t.cmpStb)) =
      some (⟨246, 329, 0⟩, ⟨254, 337, 8⟩, true) := by decide
/-- Section 2.4: `DIVTGT = 255`, `CNT = 253`; and a stopped block. -/
theorem test_ovf_counts : after 0x40000 { running with divtgt := 255, cnt := 253 }
      (fun t => (t.cnt.toNat, t.cmpStb)) = some (254, false) ∧
    after 0x40000 disabledFwd (fun t => (t.cnt.toNat, t.cmpStb)) = some (0, false) := by decide
theorem test_onop : after 0x00000 { running with cmpStb := true, rdata := 7 }
    (fun t => (t.cmpStb, t.cnt.toNat)) = some (false, 3) := by decide
theorem test_hnop : after 0x1FFFF { running with cmpStb := true, rdata := 7 }
    (fun t => (t.rdata.toNat, t.drive)) = some (0, .running) := by decide
theorem test_cmdInit : after 0x30001 atReset row =
      some [1, 0, 0, 0, 5, 10, 0x09] ∧
    after 0x30001 running row = some [2, 0, 3, 7, 12, 2, 0x32] := by decide
theorem test_cmdEnable : after 0x30002 disabledRev row =
      some [2, 1, 0, 0, 10, 5, 0x36] ∧
    after 0x30002 atReset row = some [0, 0, 0, 0, 5, 10, 0x08] := by decide
theorem test_cmdDisable : after 0x30003 runningRev row =
      some [1, 1, 0, 0, 10, 5, 0x0D] ∧
    after 0x70003 aboutToTick (fun t => (t.idx, t.fall.ph0, t.cmpStb)) =
      some (⟨0, 5, 10⟩, 0, true) := by decide
theorem test_cmdReverse : after 0x30004 running row =
      some [1, 1, 0, 0, 10, 5, 0x0D] ∧
    after 0x30004 disabledRev row = some [1, 0, 0, 0, 5, 10, 0x09] := by decide
/-- Section 2.7, `OVF || WR.DIVTGT 15`: the event compares with the old target. -/
theorem test_wrDivtgt : after 0x7020F aboutToTick (fun t => (t.divtgt.toNat, t.cmpStb, t.cnt.toNat)) =
    some (15, true, 0) := by decide
theorem test_wrScaledl : after 0x346FE endP1 (fun t => t.sample 3) = some 254 ∧
    after 0x34600 endP1 (fun t => t.sample 3) = some 0 := by decide
theorem test_wrScaledh : after 0x347FF endP1 (fun t => t.sample 3) = some (-246) ∧
    after 0x35D00 endP1 (fun t => t.sample 14) = some 15 := by decide
theorem test_rdStatus : after 0x20100 endP1 (·.rdata.toNat) = some 0x32 := by decide
theorem test_rdDivtgt : after 0x20200 endP1 (·.rdata.toNat) = some 0x0A := by decide
theorem test_rdCnt : after 0x60300 running (·.rdata.toNat) = some 4 := by decide
/-- Section 2.7, `OVF || RD.IDX0`: the read sees the tick. -/
theorem test_rdIdx0 : after 0x60400 aboutToTick (·.rdata.toNat) = some 0x08 := by decide
theorem test_rdIdx120 : after 0x20500 endP1 (·.rdata.toNat) = some 0x06 := by decide
theorem test_rdIdx240 : after 0x20600 endP1 (·.rdata.toNat) = some 0x0B := by decide
theorem test_rdRisel : after 0x21800 endP1 (·.rdata.toNat) = some 0xE3 := by decide
theorem test_rdRiseh : after 0x21900 endP1 (·.rdata.toNat) = some 0x03 := by decide
theorem test_rdFalll : after 0x21600 endP1 (·.rdata.toNat) = some 0x6C := by decide
theorem test_rdFallh : after 0x21B00 endP1 (·.rdata.toNat) = some 0x03 := by decide
theorem test_rdScaledl : after 0x25200 endP1 (·.rdata.toNat) = some 0xE8 := by decide
theorem test_rdScaledh : after 0x25300 endP1 (·.rdata.toNat) = some 0x03 := by decide
theorem test_rdRefl : after 0x29400 atReset (·.rdata.toNat) = some 0xE7 := by decide
theorem test_rdRefh : after 0x29500 atReset (·.rdata.toNat) = some 0x03 := by decide
theorem test_hRsvdw : after 0x35E01 endP1 (fun t => (t.rdata.toNat, t.mem)) =
    some (0, endP1.mem) := by decide
theorem test_hRsvdr : after 0x20700 { endP1 with rdata := 7 } (·.rdata.toNat) = some 0 := by decide

/-- Section 2.5: the samples on the two sides of `MIN_PULSE`, and a negative one. -/
theorem test_deadTime : deadTime Config.fixture 9 = (0, 8) ∧ deadTime Config.fixture 10 = (6, 14) ∧
    deadTime Config.fixture (-32768) = (0, 8) := by decide
/-- Section 2.6: `floor(2N/3)` is not `2*floor(N/3)` at N = 17 and 32. -/
theorem test_initIdx : initIdx 17 .forward = ⟨0, 5, 11⟩ ∧ initIdx 32 .reverse = ⟨0, 21, 10⟩ := by decide
/-- The result of a 16-bit read. -/
def wideResult (r : WideRead) (e1 e2 : Instr) (s : State) : Option Int :=
  match wideRead r e1 e2 s with
  | .next (v, _) => some v
  | _ => none

/-- 40_host_access.md R110 with the example of R101: the pattern `0xFFFE` is -2 in the scaled table
and a threshold of the same pattern is 65534. -/
theorem test_wideRead_signs :
    wideResult (.scaled 3) .onop .onop
      { endP1 with mem := Memory.write (Memory.write refTable 0x46 0xFE) 0x47 0xFF } = some (-2) ∧
    wideResult (.rise 1) .onop .onop { endP1 with rise := ⟨0, 0xFFFE, 0⟩ } = some 65534 ∧
    wideResult (.ref 9) .onop .onop endP1 = some 1000 ∧
    wideResult (.fall 2) .onop .onop endP1 = some 1003 := by decide

/-- The example of 70_reset_and_hazards.md R212: a tick in the second step, `RISE[0]` from 252 to 260
(sample 264), reads as 508 with the low byte of 252 and the high byte of 260. -/
theorem test_wideRead_torn : wideResult (.rise 0) .onop .ovf
    { aboutToTick with rise := ⟨0x00FC, 0, 0⟩, mem := [(0x4E, 0x08), (0x4F, 0x01)] } = some 508 := by
  decide

/-- The very next step runs the presented word. -/
theorem test_step_runs_presented_word :
    (match step (State.reset.withFetchWord 24 0x30001) with
      | .next t => some t.drive
      | _ => none) = some .disabled := by decide

/-! ### One state and operands for the hypotheses of each statement -/

theorem witness_EveryWordDecodesToItsRows : (32 ≤ 32) ∧ (0xFFFFF : Word).getLsbD 19 = true ∧
    (0x7FFFF : Word).getLsbD 19 = false := by decide

theorem witness_RowsOfASlotAreDisjoint :
    (Instr.rdRisel 0).slot = (Instr.rdRisel 2).slot ∧
    (Instr.rdRisel 0).wellFormed 15 = true ∧ (Instr.rdRisel 2).wellFormed 15 = true ∧
    (Instr.rdRisel 0).matchesRow 0x21800 = true ∧ (Instr.rdRisel 2).matchesRow 0x21800 = true ∧
    (∀ a d, Instr.rdRisel 0 ≠ .hRsvdw a d ∧ Instr.rdRisel 2 ≠ .hRsvdw a d) ∧
    (∀ a, Instr.rdRisel 0 ≠ .hRsvdr a ∧ Instr.rdRisel 2 ≠ .hRsvdr a) := by
  refine ⟨by decide, by decide, by decide, by decide, by decide, ?_, ?_⟩ <;> intros <;> simp

theorem witness_EncodedOperationsDecodeBack : Instr.ovf.slot = .event ∧
    (Instr.wrScaledh 14 0xFF).slot = .host ∧ (Instr.wrScaledh 14 0xFF).wellFormed 15 = true ∧
    (Instr.hRsvdw 0x5E 0x01).slot = .host ∧ (Instr.hRsvdw 0x5E 0x01).wellFormed 15 = true := by decide

/-- An empty host slot, a read and a write. -/
theorem witness_CanonicalWordsEncodeBack :
    ((0x40000 : Word).getLsbD 19 = false ∧ (0x40000 : Word) &&& 0x1FFFF = 0 ∧
      (0x40000 : Word).getLsbD 17 = false) ∧
    ((0x6FF00 : Word).getLsbD 19 = false ∧ (0x6FF00 : Word) &&& 0x000FF = 0 ∧
      (0x6FF00 : Word).getLsbD 17 = true ∧ (0x6FF00 : Word).getLsbD 16 = false) ∧
    ((0x75DFF : Word).getLsbD 19 = false ∧ (0x75DFF : Word).getLsbD 17 = true ∧
      (0x75DFF : Word).getLsbD 16 = true) := by decide

theorem witness_IgnoredBitsHaveNoEffect :
    ((0x80000 : Word).getLsbD 19 = true ∧ (0xFFFFF : Word).getLsbD 19 = true) ∧
    ((0x40000 : Word) &&& 0xE0000 = 0x5FFFF &&& 0xE0000 ∧ (0x40000 : Word).getLsbD 17 = false) ∧
    ((0x20100 : Word) &&& 0xFFF00 = 0x201AB &&& 0xFFF00 ∧ (0x20100 : Word).getLsbD 16 = false) := by
  decide

/-- Each clause: a queued word, no queued word, one operation, two operations, a fault of the first. -/
theorem witness_StepRunsTheDecodedOperations :
    (presentWord running 0x60300).input = 0x60300 :: [] ∧ running.input = [] ∧
    decodeOps running.cfg.n 0x80000 = [.rst] ∧ decodeOps running.cfg.n 0x60300 = [.ovf, .rdCnt] ∧
    (∃ m, exec .ovf running = .next m) ∧ exec .ovf indexTooHigh = .fault .indexAboveN :=
  ⟨rfl, rfl, by decide, by decide, ⟨_, rfl⟩, rfl⟩

theorem witness_EventRunsBeforeTheHostAccess : Instr.ovf.slot = .event ∧ Instr.rdCnt.slot = .host ∧
    Instr.rdCnt.wellFormed running.cfg.n = true ∧ (∃ m, exec .ovf running = .next m) ∧
    Instr.rdCnt.wellFormed indexTooHigh.cfg.n = true ∧
    exec .ovf indexTooHigh = .fault .indexAboveN :=
  ⟨rfl, rfl, rfl, ⟨_, rfl⟩, rfl, rfl⟩

/-- `RST`, a host read with a tick, a host write, no host access. -/
theorem witness_OutputRecordOfAStep : (∃ t, runWord 0x80000 running = .next t) ∧
    (∃ t, runWord 0x60400 aboutToTick = .next t) ∧ (∃ t, runWord 0x30296 running = .next t) ∧
    (∃ t, runWord 0x40000 running = .next t) := ⟨⟨_, rfl⟩, ⟨_, rfl⟩, ⟨_, rfl⟩, ⟨_, rfl⟩⟩

theorem witness_RstGivesTheResetState : (0x80000 : Word).getLsbD 19 = true := by decide

theorem witness_OverflowOutsideRunningIsLost : atReset.drive ≠ .running ∧ disabledFwd.drive ≠ .running := by
  decide

theorem witness_OverflowBelowTheTargetCounts :
    ∃ s : State, s.drive = .running ∧ s.cnt.toNat + 1 < s.divtgt.toNat ∧ s.cnt.toNat = 253 :=
  ⟨{ running with divtgt := 255, cnt := 253 }, by decide⟩

/-- Indices 15 = N, 5, 10: the first phase wraps. -/
theorem witness_OverflowAtTheTargetTicks : ∃ s : State, s.cfg.BlockLegal ∧ s.drive = .running ∧
    s.divtgt.toNat ≤ s.cnt.toNat + 1 ∧ s.idx.ph0 = s.cfg.n ∧ s.idx.ph0 ≤ s.cfg.n ∧
    s.idx.ph1 ≤ s.cfg.n ∧ s.idx.ph2 ≤ s.cfg.n :=
  ⟨{ aboutToTick with idx := ⟨15, 5, 10⟩ }, by decide⟩

theorem witness_OnlyATickAboveNStops : indexTooHigh.drive = .running ∧
    indexTooHigh.divtgt.toNat ≤ indexTooHigh.cnt.toNat + 1 ∧
    indexTooHigh.cfg.n < indexTooHigh.idx.ph0 := by decide

/-- The samples -32768, 9, 10 and 32767, one for each clause and each side. -/
theorem witness_DeadTimeStaysInRange : Config.fixture.BlockLegal ∧
    ∀ v ∈ ([-32768, 9, 10, 32767] : List Int), -32768 ≤ v ∧ v ≤ 32767 := by decide

theorem witness_TicksAreSpacedByTheTarget : (enabled .forward).cfg.BlockLegal ∧
    (enabled .forward).drive = .running ∧ (enabled .forward).cnt = 0x00 ∧
    (enabled .forward).idx.ph0 ≤ 15 ∧ (enabled .forward).idx.ph1 ≤ 15 ∧
    (enabled .forward).idx.ph2 ≤ 15 ∧ 0 < 2 ∧ 2 < max (enabled .forward).divtgt.toNat 1 := by decide

theorem witness_PhasesWalkTheTableInOrder : ∀ d ∈ [Dir.forward, Dir.reverse],
    (enabled d).cfg.BlockLegal ∧ (enabled d).drive = .running ∧ (enabled d).cnt = 0x00 ∧
    (enabled d).idx = initIdx (enabled d).cfg.n (enabled d).dir := by decide

theorem witness_OverflowDoesNotReadTheReference : ∃ t, exec .ovf aboutToTick = .next t := ⟨_, rfl⟩

theorem witness_commands_each_drive_state : atReset.drive = .uninitialized ∧
    disabledFwd.drive = .disabled ∧ disabledFwd.drive ≠ .uninitialized ∧ running.drive = .running ∧
    running.drive ≠ .disabled ∧ disabledFwd.drive ≠ .running := by decide

theorem witness_ReservedCommandCodesDoNothing : ∀ d ∈ ([0x00, 0x05, 0xFF] : List Byte),
    d = 0x00 ∨ 0x05 ≤ d.toNat := by decide

theorem witness_AllButReverseAreIdempotent : Memory.wf running.mem = true := by decide

/-- Targets 4 = CNT + 1 and 5, with an index at `N`. -/
theorem witness_RetargetingTakesEffectAtTheNextEvent : ∃ s : State, s.cfg.BlockLegal ∧
    s.drive = .running ∧ s.idx.ph0 = s.cfg.n ∧ s.idx.ph0 ≤ s.cfg.n ∧ s.idx.ph1 ≤ s.cfg.n ∧
    s.idx.ph2 ≤ s.cfg.n ∧ (4 : Byte).toNat ≤ s.cnt.toNat + 1 ∧ s.cnt.toNat + 1 < (5 : Byte).toNat :=
  ⟨{ running with idx := ⟨15, 5, 10⟩ }, by decide⟩

/-- Entries 14, the last, and 15, the first reserved one. -/
theorem witness_table_index : Memory.wf running.mem = true ∧ running.cfg.BlockLegal ∧
    (14 : BitVec 5).toNat < running.cfg.n ∧ running.cfg.n ≤ (15 : BitVec 5).toNat := by decide

theorem witness_ReadScalarsReturnTheRegisters : running.idx.ph0 ≤ 255 ∧ running.idx.ph1 ≤ 255 ∧
    running.idx.ph2 ≤ 255 := by decide

/-- The four phase numbers, each with its pair of thresholds. -/
theorem witness_ReadThresholdsReturnTheirBytes : ∀ p : BitVec 2, ∃ r f : Half,
    (p = 0 ∧ r = running.rise.ph0 ∧ f = running.fall.ph0) ∨
      (p = 1 ∧ r = running.rise.ph1 ∧ f = running.fall.ph1) ∨
      (p = 2 ∧ r = running.rise.ph2 ∧ f = running.fall.ph2) ∨ (p = 3 ∧ r = 0 ∧ f = 0) := by
  intro p
  match h : p with
  | 0 => exact ⟨_, _, .inl ⟨rfl, rfl, rfl⟩⟩
  | 1 => exact ⟨_, _, .inr (.inl ⟨rfl, rfl, rfl⟩)⟩
  | 2 => exact ⟨_, _, .inr (.inr (.inl ⟨rfl, rfl, rfl⟩))⟩
  | 3 => exact ⟨_, _, .inr (.inr (.inr ⟨rfl, rfl, rfl⟩))⟩

/-- The addresses on both sides of each boundary of the reserved reads at N = 15. -/
theorem witness_ReservedReadsReturnZero : running.cfg.n ≤ 32 ∧
    (∀ a ∈ ([0x00, 0x07, 0x0F, 0x1C, 0x3F, 0x5E, 0x7F, 0x9E, 0xFF] : List Byte),
      decodeRead 15 a = .hRsvdr a) ∧
    (∀ a ∈ ([0x01, 0x06, 0x10, 0x1B, 0x40, 0x5D, 0x80, 0x9D] : List Byte),
      decodeRead 15 a ≠ .hRsvdr a) := by decide

/-- The addresses and codes on both sides of each boundary of the reserved writes at N = 15. -/
theorem witness_ReservedWritesDoNothing : running.cfg.n ≤ 32 ∧
    decodeWrite 15 0x00 0x00 = .hRsvdw 0x00 0x00 ∧ decodeWrite 15 0x00 0x01 ≠ .hRsvdw 0x00 0x01 ∧
    decodeWrite 15 0x00 0x04 ≠ .hRsvdw 0x00 0x04 ∧ decodeWrite 15 0x00 0x05 = .hRsvdw 0x00 0x05 ∧
    (∀ a ∈ ([0x01, 0x03, 0x3F, 0x5E, 0xFF] : List Byte), decodeWrite 15 a 1 = .hRsvdw a 1) ∧
    (∀ a ∈ ([0x02, 0x40, 0x5D] : List Byte), decodeWrite 15 a 1 ≠ .hRsvdw a 1) := by decide

theorem witness_WritableAddressesReadBack : Memory.wf running.mem = true ∧
    (∀ a ∈ ([0x02, 0x40, 0x5D] : List Byte), a ≠ 0x00 ∧
      (a = 0x02 ∨ (0x40 ≤ a.toNat ∧ a.toNat < 0x40 + 2 * running.cfg.n ∧ a.toNat ≤ 0x7F))) ∧
    (∀ a ∈ ([0x01, 0x3F, 0x5E, 0x80] : List Byte), a ≠ 0x00 ∧
      ¬(a = 0x02 ∨ (0x40 ≤ a.toNat ∧ a.toNat < 0x40 + 2 * running.cfg.n ∧ a.toNat ≤ 0x7F))) := by
  decide

/-- Section 2.9, the largest step: entry 14 from 15 to 32767. -/
theorem witness_TornEntryIsOldHighByteNewLowByte : Memory.wf running.mem = true ∧
    (14 : BitVec 5).toNat < running.cfg.n ∧ 0 ≤ running.sample 14 ∧ 0 ≤ (0x7FFF : Half).toInt := by
  decide

/-- Each element changes somewhere. -/
theorem witness_OnlyNamedOperationsWriteAnElement :
    (∃ t, exec .cmdReverse running = .next t ∧ t.drive ≠ running.drive ∧ t.dir ≠ running.dir ∧
      t.cnt ≠ running.cnt ∧ t.idx ≠ running.idx ∧ t.rise ≠ running.rise) ∧
    (∃ t, exec (.wrDivtgt 0) running = .next t ∧ t.divtgt ≠ running.divtgt) ∧
    (∃ t, exec (.wrScaledl 14 0) running = .next t ∧
      ∃ a, Memory.read t.mem a ≠ Memory.read running.mem a) ∧
    (∃ t, exec .rdStatus running = .next t ∧ t.rdata ≠ running.rdata) ∧
    ∃ t, exec .ovf aboutToTick = .next t ∧ t.cmpStb ≠ aboutToTick.cmpStb :=
  ⟨⟨_, rfl, by decide⟩, ⟨_, rfl, by decide⟩, ⟨_, rfl, 0x5C, by decide⟩, ⟨_, rfl, by decide⟩,
    _, rfl, by decide⟩

/-- One word for each clause. -/
theorem witness_DriveStateFollowsTheTransitionTable :
    (∃ t, runWord 0x80000 running = .next t ∧ t.drive = .uninitialized) ∧
    (∃ t, runWord 0x30001 atReset = .next t ∧ atReset.drive = .uninitialized ∧
      t.drive ≠ .uninitialized) ∧
    (∃ t, runWord 0x70002 disabledFwd = .next t ∧ t.drive = .running ∧ disabledFwd.drive ≠ .running) ∧
    (∃ t, runWord 0x70003 running = .next t ∧ running.drive = .running ∧ t.drive = .disabled) ∧
    ∃ t, runWord 0x30004 running = .next t ∧ running.drive = .running ∧ t.drive = .disabled :=
  ⟨⟨_, rfl, rfl⟩, ⟨_, rfl, rfl, by decide⟩, ⟨_, rfl, rfl, by decide⟩, ⟨_, rfl, rfl, rfl⟩,
    _, rfl, rfl, rfl⟩

/-- "Running*" meets the invariants, so do the other named states with an index at `N`. -/
theorem witness_invariants : Inv running ∧ Inv { runningRev with idx := ⟨15, 10, 5⟩ } := by
  constructor <;> constructor <;> decide

theorem witness_EveryStepKeepsTheInvariants :
    Inv (presentWord running 0x70004) ∧ ∃ t, step (presentWord running 0x70004) = .next t :=
  ⟨by constructor <;> decide, _, rfl⟩

/-- A tie. -/
theorem witness_RoundIsNearestTiesAway : |(roundAway (5 / 2) : Rat) - 5 / 2| = 1 / 2 := by
  have h : roundAway (5 / 2) = 3 := by
    have e : (5 / 2 + 1 / 2 : Rat) = (3 : Int) := by norm_num
    unfold roundAway
    rw [if_pos (by norm_num), e, Rat.floor_intCast]
  rw [h]
  norm_num

/-- Two frequencies, one at each end of the range, at FX. -/
theorem witness_frequencies : Config.fixture.Legal ∧
    (20 : BitVec 16).toNat ≤ (65535 : BitVec 16).toNat ∧ 0 < Config.fixture.n :=
  ⟨Config.fixture_legal, by decide, by decide⟩

theorem witness_MinimumFrequencyGivesMinimumAmplitude : Config.fixture.Legal ∧
    Config.fixture.minFreq = 20 ∧ Config.fixture.minAmp = 1 / 10 ∧ 14 < Config.fixture.n :=
  ⟨Config.fixture_legal, rfl, rfl, by decide⟩

theorem amplitude_fixture_300 : amplitude Config.fixture 300 = 1 := by
  have h : clampedFreq Config.fixture 300 = 300 := by decide
  simp only [amplitude, h]
  norm_num [clampRat, Config.fixture]

/-- With a `REF` entry of 0 and, at 300 Hz, amplitude 1. -/
theorem witness_ScaledSamplesFitAndKeepTheReferenceAtFullAmplitude : Config.fixture.Legal ∧
    Config.fixture.maxAmp = 1 ∧ Config.fixture.refAt 0 = 0 ∧ amplitude Config.fixture 300 = 1 :=
  ⟨Config.fixture_legal, rfl, rfl, amplitude_fixture_300⟩

theorem scaledOf_fixture_300_14 : scaledOf Config.fixture 300 14 = 15 := by
  have h : (Config.fixture.refAt 14 : Rat) * 1 = 15 := by
    rw [show Config.fixture.refAt 14 = 15 from rfl]
    norm_num
  rw [scaledOf, amplitude_fixture_300, h, roundAway, if_pos (by norm_num)]
  change ⌊(15 + 1 / 2 : Rat)⌋ = 15
  norm_num

theorem divTgtOf_fixture_300 : divTgtOf Config.fixture 300 = 10 := by
  have h : clampedFreq Config.fixture 300 = 300 := by decide
  rw [divTgtOf, h]
  change ⌊(3000 : Rat) / (300 : Nat)⌋ = 10
  norm_num

/-- `SETFREQ 300` at FX, the last entry and the target. -/
theorem witness_SetFreqFillsTheTableAndTheTarget : running.cfg.Legal ∧ running.cfg.maxAmp = 1 ∧
    Memory.wf running.mem = true ∧ (14 : BitVec 5).toNat < running.cfg.n ∧
    (15 : Half).toInt = scaledOf running.cfg 300 (14 : BitVec 5).toNat ∧
    ((10 : Byte).toNat : Int) = divTgtOf running.cfg 300 :=
  ⟨Config.fixture_legal, rfl, by decide, by decide, scaledOf_fixture_300_14.symm,
    divTgtOf_fixture_300.symm⟩

/-- The last entry and the last phase; and for the second clause a tick in the second step. -/
theorem witness_WideReadsJoinTwoBytes : aboutToTick.cfg.BlockLegal ∧
    (WideRead.low (.scaled 14)).wellFormed aboutToTick.cfg.n = true ∧
    (WideRead.low (.ref 14)).wellFormed aboutToTick.cfg.n = true ∧
    (WideRead.low (.rise 2)).wellFormed aboutToTick.cfg.n = true ∧
    Instr.onop.slot = .event ∧ Instr.ovf.slot = .event ∧
    (∃ t, runWord (encodePair .onop (WideRead.low (.rise 2))) running = .next t) ∧
    aboutToTick.cfg = running.cfg ∧
    ∃ u, runWord (encodePair .ovf (WideRead.high (.rise 2))) aboutToTick = .next u :=
  ⟨by decide, by decide, by decide, by decide, rfl, rfl, ⟨_, rfl⟩, rfl, _, rfl⟩

end Sys2Proof.Tests
end

section
/-! PROOFS. The output record of a step (10_state.md R34): every host access is `MemRead` or `MemWrite`
of the register map (20_memory.md R52) and keeps `CMP_STB`; the event operation sets `CMP_STB` exactly
on a tick. -/

namespace Sys2Proof.Machine

/-! ### An address put together from its operand fields (30_encoding.md R75) -/

/-- An address as window, table index and byte select. -/
theorem addr_toNat_eq_window_entry : ∀ a : Byte,
    a.toNat = 64 * (addrWindow a).toNat + entryByte (addrIndex a).toNat (addrHigh a) := by
  decide

/-- The threshold addresses are a range. -/
theorem threshold_addr_iff : ∀ a : Byte, (addrGroup a = 0b0001 ∧ (addrPhase a).toNat < 3) ↔
    0x10 ≤ a.toNat ∧ a.toNat ≤ 0x1B := by
  decide

/-- The twelve threshold addresses: two bytes of two thresholds of three phases. -/
theorem threshold_addr_cases : ∀ a : Byte, addrGroup a = 0b0001 ∧ (addrPhase a).toNat < 3 →
    a ∈ ([0x10, 0x11, 0x12, 0x13, 0x14, 0x15, 0x16, 0x17, 0x18, 0x19, 0x1A, 0x1B] : List Byte) := by
  decide

/-- The byte of entry `i` lies inside the two-byte entry. -/
theorem entryByte_bounds (i : Nat) (high : Bool) :
    2 * i ≤ entryByte i high ∧ entryByte i high ≤ 2 * i + 1 := by
  cases high <;> simp

/-- The position in the table gives back the entry and the byte select. -/
theorem entryByte_div_mod (i : Nat) (high : Bool) :
    entryByte i high / 2 = i ∧ decide (entryByte i high % 2 = 1) = high := by
  cases high
  · simp
  · rw [entryByte_high]
    exact ⟨by omega, decide_eq_true (by omega)⟩

/-- An address of window `b`, from its two fields. -/
theorem addr_toNat_of_window {a : Byte} {b : BitVec 2} (hw : addrWindow a = b) :
    a.toNat = 64 * b.toNat + entryByte (addrIndex a).toNat (addrHigh a) :=
  hw ▸ addr_toNat_eq_window_entry a

/-- An address lies in the table of length `n` of window `b` exactly if it has that window and an
index below `n`. -/
theorem window_index_iff (a : Byte) (b : BitVec 2) (n : Nat) :
    (addrWindow a = b ∧ (addrIndex a).toNat < n) ↔
      64 * b.toNat ≤ a.toNat ∧ a.toNat < 64 * b.toNat + 2 * n ∧ a.toNat ≤ 64 * b.toNat + 63 := by
  have ha := addr_toNat_eq_window_entry a
  have he := entryByte_bounds (addrIndex a).toNat (addrHigh a)
  have hi := (addrIndex a).isLt
  rw [← BitVec.toNat_inj]
  omega

/-! ### The register map, region by region (10_state.md R35) -/

/-- The output record is no part of the register map. -/
@[simp] theorem memRead_rdata (s : State) (b a : Byte) : memRead { s with rdata := b } a = memRead s a :=
  rfl

/-- At the address of no register, `MemRead` reads one of the two tables or `0x00`. -/
theorem memRead_of_not_register {s : State} {a : Byte} (hreg : a.toNat < 0x01 ∨ 0x06 < a.toNat)
    (hthr : a.toNat < 0x10 ∨ 0x1B < a.toNat) :
    memRead s a =
      if 0x40 ≤ a.toNat ∧ a.toNat < 0x40 + 2 * s.cfg.n ∧ a.toNat ≤ 0x7F then
        Memory.read s.mem a.toNat
      else if 0x80 ≤ a.toNat ∧ a.toNat < 0x80 + 2 * s.cfg.n ∧ a.toNat ≤ 0xBF then
        selectByte (refWord s.cfg ((a.toNat - 0x80) / 2)) (decide ((a.toNat - 0x80) % 2 = 1))
      else 0x00 := by
  unfold memRead
  dsimp only
  iterate 18 rw [if_neg (by omega)]

/-- The window of the scaled table reads the bytes of `TBL`. -/
theorem memRead_scaled {s : State} {a : Byte}
    (h : addrWindow a = 0b01 ∧ (addrIndex a).toNat < s.cfg.n) :
    memRead s a = scaledByte s (addrIndex a) (addrHigh a) := by
  have hr : 0x40 ≤ a.toNat ∧ a.toNat < 0x40 + 2 * s.cfg.n ∧ a.toNat ≤ 0x7F :=
    (window_index_iff a 0b01 s.cfg.n).mp h
  have ha : a.toNat = 0x40 + entryByte (addrIndex a).toNat (addrHigh a) := addr_toNat_of_window h.1
  rw [memRead_of_not_register (by omega) (by omega), if_pos hr, ha, scaledByte, if_pos h.2,
    State.tbl, tblAddr]

/-- The window of the reference table reads the bytes of `REF`. -/
theorem memRead_ref {s : State} {a : Byte}
    (h : addrWindow a = 0b10 ∧ (addrIndex a).toNat < s.cfg.n) :
    memRead s a = refByte s (addrIndex a) (addrHigh a) := by
  have hr : 0x80 ≤ a.toNat ∧ a.toNat < 0x80 + 2 * s.cfg.n ∧ a.toNat ≤ 0xBF :=
    (window_index_iff a 0b10 s.cfg.n).mp h
  have ha : a.toNat - 0x80 = entryByte (addrIndex a).toNat (addrHigh a) := by
    have : a.toNat = 0x80 + entryByte (addrIndex a).toNat (addrHigh a) := addr_toNat_of_window h.1
    omega
  obtain ⟨hd, hm⟩ := entryByte_div_mod (addrIndex a).toNat (addrHigh a)
  rw [memRead_of_not_register (by omega) (by omega), if_neg (by omega), if_pos hr, ha, hd, hm,
    refByte, if_pos h.2]

/-- Every address of no register and no table entry reads `0x00` (40_host_access.md R108). -/
theorem memRead_reserved {s : State} {a : Byte} (hreg : a.toNat < 0x01 ∨ 0x06 < a.toNat)
    (hthr : a.toNat < 0x10 ∨ 0x1B < a.toNat)
    (hscaled : ¬(addrWindow a = 0b01 ∧ (addrIndex a).toNat < s.cfg.n))
    (href : ¬(addrWindow a = 0b10 ∧ (addrIndex a).toNat < s.cfg.n)) : memRead s a = 0x00 := by
  have hs : ¬(0x40 ≤ a.toNat ∧ a.toNat < 0x40 + 2 * s.cfg.n ∧ a.toNat ≤ 0x7F) :=
    fun h => hscaled ((window_index_iff a 0b01 s.cfg.n).mpr h)
  have hr : ¬(0x80 ≤ a.toNat ∧ a.toNat < 0x80 + 2 * s.cfg.n ∧ a.toNat ≤ 0xBF) :=
    fun h => href ((window_index_iff a 0b10 s.cfg.n).mpr h)
  rw [memRead_of_not_register hreg hthr, if_neg hs, if_neg hr]

/-! ### Host accesses follow the register map (20_memory.md R52) -/

/-- The twelve threshold reads return the byte of their address. -/
theorem exec_decodeRead_threshold (s : State) {a : Byte}
    (h : addrGroup a = 0b0001 ∧ (addrPhase a).toNat < 3) :
    exec (decodeRead s.cfg.n a) s = .next { s with rdata := memRead s a } := by
  have hmem := threshold_addr_cases a h
  simp only [List.mem_cons, List.not_mem_nil, or_false] at hmem
  rcases hmem with rfl | rfl | rfl | rfl | rfl | rfl | rfl | rfl | rfl | rfl | rfl | rfl <;> rfl

/-- A host read returns `MemRead` of its address and changes nothing else (40_host_access.md R90). -/
theorem exec_decodeRead (s : State) (a : Byte) :
    exec (decodeRead s.cfg.n a) s = .next { s with rdata := memRead s a } := by
  by_cases hthr : addrGroup a = 0b0001 ∧ (addrPhase a).toNat < 3
  · exact exec_decodeRead_threshold s hthr
  have hrange := mt (threshold_addr_iff a).mpr hthr
  by_cases hreg : a = 0x01 ∨ a = 0x02 ∨ a = 0x03 ∨ a = 0x04 ∨ a = 0x05 ∨ a = 0x06
  · rcases hreg with rfl | rfl | rfl | rfl | rfl | rfl <;> rfl
  obtain ⟨h1, h2, h3, h4, h5, h6⟩ : a ≠ 0x01 ∧ a ≠ 0x02 ∧ a ≠ 0x03 ∧ a ≠ 0x04 ∧ a ≠ 0x05 ∧
      a ≠ 0x06 := by simpa only [not_or] using hreg
  rw [decodeRead, if_neg h1, if_neg h2, if_neg h3, if_neg h4, if_neg h5, if_neg h6, if_neg hthr]
  split_ifs with hscaled hhigh href hhigh
  · rw [memRead_scaled hscaled, hhigh, exec_rdScaledh]
  · rw [memRead_scaled hscaled, Bool.eq_false_of_not_eq_true hhigh, exec_rdScaledl]
  · rw [memRead_ref href, hhigh, exec_rdRefh]
  · rw [memRead_ref href, Bool.eq_false_of_not_eq_true hhigh, exec_rdRefl]
  · rw [memRead_reserved (by bv_omega) (by omega) hscaled href, exec_hRsvdr]

/-- A code of no command changes nothing (45_drive_state_machine.md R165). -/
theorem runCommand_reserved (s : State) {d : Byte} (h1 : d ≠ 0x01) (h2 : d ≠ 0x02) (h3 : d ≠ 0x03)
    (h4 : d ≠ 0x04) : runCommand s d = s := by
  simp only [runCommand, if_neg h1, if_neg h2, if_neg h3, if_neg h4]
  split <;> rfl

/-- A write to `CTRL` runs the command of its code (45_drive_state_machine.md R167). -/
theorem exec_decodeWrite_ctrl (n : Nat) (s : State) (d : Byte) :
    exec (decodeWrite n 0x00 d) s = .next { runCommand s d with rdata := 0 } := by
  simp only [decodeWrite, if_true]
  split_ifs with h1 h2 h3 h4
  · subst h1; rw [exec_cmdInit]; cases h : s.drive <;> simp [runCommand, h]
  · subst h2; rw [exec_cmdEnable]; cases h : s.drive <;> simp [runCommand, h]
  · subst h3; rw [exec_cmdDisable]; cases h : s.drive <;> simp [runCommand, h]
  · subst h4; rw [exec_cmdReverse]; cases h : s.drive <;> simp [runCommand, h]
  · rw [exec_hRsvdw, runCommand_reserved s h1 h2 h3 h4]

/-- The window of the scaled table writes the bytes of `TBL`. -/
theorem memWrite_scaled {s : State} {a : Byte} (d : Byte)
    (h : addrWindow a = 0b01 ∧ (addrIndex a).toNat < s.cfg.n) :
    memWrite s a d = setScaledByte s (addrIndex a) (addrHigh a) d := by
  have hr : 0x40 ≤ a.toNat ∧ a.toNat < 0x40 + 2 * s.cfg.n ∧ a.toNat ≤ 0x7F :=
    (window_index_iff a 0b01 s.cfg.n).mp h
  have ha : a.toNat = 0x40 + entryByte (addrIndex a).toNat (addrHigh a) := addr_toNat_of_window h.1
  rw [setScaledByte_of_lt _ _ h.2, State.setTbl, tblAddr, ← ha]
  simp only [memWrite]
  rw [if_neg (by omega), if_neg (by omega), if_pos hr]

/-- A write to no writable address does nothing (40_host_access.md R109). -/
theorem memWrite_reserved {s : State} {a : Byte} (d : Byte) (h0 : a ≠ 0x00) (h2 : a ≠ 0x02)
    (hscaled : ¬(addrWindow a = 0b01 ∧ (addrIndex a).toNat < s.cfg.n)) : memWrite s a d = s := by
  have hs : ¬(0x40 ≤ a.toNat ∧ a.toNat < 0x40 + 2 * s.cfg.n ∧ a.toNat ≤ 0x7F) :=
    fun h => hscaled ((window_index_iff a 0b01 s.cfg.n).mpr h)
  simp only [memWrite]
  rw [if_neg (by bv_omega), if_neg (by bv_omega), if_neg hs]

/-- A host write is `MemWrite` of its address and data, with `RDATA = 0x00`. -/
theorem exec_decodeWrite (s : State) (a d : Byte) :
    exec (decodeWrite s.cfg.n a d) s = .next { memWrite s a d with rdata := 0 } := by
  by_cases h0 : a = 0x00
  · subst h0; exact exec_decodeWrite_ctrl s.cfg.n s d
  simp only [decodeWrite, if_neg h0]
  split_ifs with h2 hscaled hhigh
  · subst h2; rfl
  · rw [memWrite_scaled d hscaled, hhigh, exec_wrScaledh]
  · rw [memWrite_scaled d hscaled, Bool.eq_false_of_not_eq_true hhigh, exec_wrScaledl]
  · rw [memWrite_reserved d h0 h2 hscaled, exec_hRsvdw]

/-- No command touches `CMP_STB`. -/
@[simp] theorem runCommand_cmpStb (s : State) (d : Byte) : (runCommand s d).cmpStb = s.cmpStb := by
  unfold runCommand
  split <;> split_ifs <;> rfl

/-- No write touches `CMP_STB`. -/
@[simp] theorem memWrite_cmpStb (s : State) (a d : Byte) : (memWrite s a d).cmpStb = s.cmpStb := by
  simp only [memWrite]
  split_ifs
  · exact runCommand_cmpStb s d
  all_goals rfl

/-! ### The two slots of a word -/

theorem decodeOps_of_rst {n : Nat} {w : Word} (h : wordRst w = true) : decodeOps n w = [.rst] :=
  if_pos h

theorem decodeOps_of_not_rst {n : Nat} {w : Word} (h : wordRst w = false) :
    decodeOps n w = [decodeEvent w, decodeHost n w] := by
  simp [decodeOps, h]

/-- A word with `RST` resets the block. -/
theorem runWord_of_rst {w : Word} (s : State) (h : wordRst w = true) :
    runWord w s = .next (resetBlock s) := by
  simp [runWord, decodeOps_of_rst h]

/-- A word without `RST` that completes ran its event operation and then its host operation
(30_encoding.md R72). -/
theorem runWord_eq_next_of_not_rst {w : Word} {s t : State} (h : wordRst w = false) :
    runWord w s = .next t ↔
      ∃ m, exec (decodeEvent w) s = .next m ∧ exec (decodeHost s.cfg.n w) m = .next t := by
  simp only [runWord, decodeOps_of_not_rst h, runOps_cons, andThen_runOps_nil, andThen_eq_next]

/-- The event slot keeps the configuration and sets `CMP_STB` exactly if the event ticked
(42_overflow_divider.md R131). -/
theorem exec_decodeEvent_record {w : Word} {s m : State} (h : exec (decodeEvent w) s = .next m) :
    m.cfg = s.cfg ∧ (m.cmpStb = true ↔
      wordOvf w = true ∧ s.drive = .running ∧ s.divtgt.toNat ≤ s.cnt.toNat + 1) := by
  cases hovf : wordOvf w with
  | false =>
    simp only [decodeEvent, hovf, Bool.false_eq_true, if_false, exec_onop] at h
    cases h
    simp
  | true =>
    simp only [decodeEvent, hovf, if_true] at h
    rcases exec_ovf_cases s with ⟨hr, he⟩ | ⟨-, hc, he⟩ | ⟨hr, hc, -, -, -, -, he⟩ | ⟨-, -, -, he⟩
    · cases he.symm.trans h
      simp [hr]
    · cases he.symm.trans h
      simp [hc]
    · cases he.symm.trans h
      simp [hr, hc]
    · cases he.symm.trans h

/-- The host slot keeps `CMP_STB`; it returns the register-map byte for a read and `0x00` without
one. -/
theorem exec_decodeHost_record {w : Word} {m t : State}
    (h : exec (decodeHost m.cfg.n w) m = .next t) :
    t.cmpStb = m.cmpStb ∧
      (wordHv w = true ∧ wordWe w = false → t.rdata = memRead t (wordAddr w)) ∧
      (wordHv w = false ∨ wordWe w = true → t.rdata = 0x00) := by
  cases hhv : wordHv w with
  | false =>
    simp only [decodeHost, hhv, Bool.false_eq_true, if_false, exec_hnop] at h
    cases h
    simp
  | true =>
    cases hwe : wordWe w with
    | false =>
      simp only [decodeHost, hhv, hwe, Bool.false_eq_true, if_true, if_false, exec_decodeRead] at h
      cases h
      simp
    | true =>
      simp only [decodeHost, hhv, hwe, if_true, exec_decodeWrite] at h
      cases h
      simp

/-- Settles O9: `CMP_STB` is the event slot's, which the host slot keeps; `RDATA` is the host
slot's. -/
theorem outputRecordOfAStep : Obligations.OutputRecordOfAStep := by
  intro w s t h
  constructor
  · intro hrst
    rw [runWord_of_rst s hrst] at h
    cases h
    simp
  · intro hrst
    obtain ⟨m, hevent, hhost⟩ := (runWord_eq_next_of_not_rst hrst).mp h
    obtain ⟨hcfg, htick⟩ := exec_decodeEvent_record hevent
    rw [← hcfg] at hhost
    obtain ⟨hkeep, hread, hnone⟩ := exec_decodeHost_record hhost
    exact ⟨hread, hnone, hkeep ▸ htick⟩

end Sys2Proof.Machine
end

section
/-! PROOFS. The empty slots (30_encoding.md R78): a word whose bits 19, 18 and 17 are 0 holds `ONOP` and
`HNOP`, whatever its other bits are, and its step clears the output record. -/

namespace Sys2Proof.Machine

theorem decodeEvent_of_not_ovf {w : Word} (h : wordOvf w = false) : decodeEvent w = .onop := by
  simp [decodeEvent, h]

theorem decodeHost_of_not_hv {n : Nat} {w : Word} (h : wordHv w = false) :
    decodeHost n w = .hnop := by
  simp [decodeHost, h]

theorem decodeOps_of_empty {n : Nat} {w : Word} (hrst : wordRst w = false)
    (hovf : wordOvf w = false) (hhv : wordHv w = false) : decodeOps n w = [.onop, .hnop] := by
  rw [decodeOps_of_not_rst hrst, decodeEvent_of_not_ovf hovf, decodeHost_of_not_hv hhv]

/-- A word of two empty slots clears the output record and changes nothing else. -/
theorem runWord_of_empty {w : Word} (s : State) (hrst : wordRst w = false)
    (hovf : wordOvf w = false) (hhv : wordHv w = false) :
    runWord w s = .next { s with cmpStb := false, rdata := 0x00 } := by
  refine (runWord_eq_next_of_not_rst hrst).mpr ⟨{ s with cmpStb := false }, ?_, ?_⟩
  · rw [decodeEvent_of_not_ovf hovf, exec_onop]
  · rw [decodeHost_of_not_hv hhv, exec_hnop]

/-- Settles O12: each empty slot by its meaning; `0x00000` as a word of two empty slots. -/
theorem emptySlotsDoNothing : Obligations.EmptySlotsDoNothing := by
  intro s
  have hrst : wordRst 0x00000 = false := by decide
  have hovf : wordOvf 0x00000 = false := by decide
  have hhv : wordHv 0x00000 = false := by decide
  exact ⟨exec_onop s, exec_hnop s, decodeOps_of_empty hrst hovf hhv,
    runWord_of_empty s hrst hovf hhv⟩

end Sys2Proof.Machine
end

section
/-! PROOFS. The words of host accesses: the operation a word holds is read off its address
(30_encoding.md R71 to R74), region by region of the host address space. -/

namespace Sys2Proof.Machine

/-! ### The word of an access, by its address (30_encoding.md R71) -/

/-- The word of a host read of address `a` with no event: `HV` set, `WE` clear. -/
def readWord (a : Byte) : Word := 0x20000 ||| atAddr a

/-- The word of a host write of `d` to address `a` with no event: `HV` and `WE` set. -/
def writeWord (a d : Byte) : Word := 0x30000 ||| atAddr a ||| atData d

/-- A word with `HV` and without `RST` and `WE` holds the read of its address. -/
theorem decodeOps_of_read {n : Nat} {w : Word} (hrst : wordRst w = false) (hhv : wordHv w = true)
    (hwe : wordWe w = false) : decodeOps n w = [decodeEvent w, decodeRead n (wordAddr w)] := by
  rw [decodeOps_of_not_rst hrst, decodeHost, if_pos hhv, hwe, if_neg Bool.false_ne_true]

/-- A word with `HV` and `WE` and without `RST` holds the write of its data to its address. -/
theorem decodeOps_of_write {n : Nat} {w : Word} (hrst : wordRst w = false) (hhv : wordHv w = true)
    (hwe : wordWe w = true) :
    decodeOps n w = [decodeEvent w, decodeWrite n (wordAddr w) (wordData w)] := by
  rw [decodeOps_of_not_rst hrst, decodeHost, if_pos hhv, if_pos hwe]

theorem readWord_fields : ∀ a : Byte,
    wordRst (readWord a) = false ∧ wordOvf (readWord a) = false ∧ wordHv (readWord a) = true ∧
      wordWe (readWord a) = false ∧ wordAddr (readWord a) = a := by
  decide

theorem writeWord_fields (a d : Byte) :
    wordRst (writeWord a d) = false ∧ wordOvf (writeWord a d) = false ∧
      wordHv (writeWord a d) = true ∧ wordWe (writeWord a d) = true ∧
      wordAddr (writeWord a d) = a ∧ wordData (writeWord a d) = d := by
  have ha : ∀ a : Byte, wordRst (0x30000 ||| atAddr a) = false ∧
      wordOvf (0x30000 ||| atAddr a) = false ∧ wordHv (0x30000 ||| atAddr a) = true ∧
      wordWe (0x30000 ||| atAddr a) = true ∧ wordAddr (0x30000 ||| atAddr a) = a ∧
      wordData (0x30000 ||| atAddr a) = 0 := by decide
  obtain ⟨hrst, hovf, hhv, hwe, haddr, hdata⟩ := ha a
  refine ⟨?_, ?_, ?_, ?_, ?_, ?_⟩
  · rw [writeWord, wordRst_or, hrst, wordRst_atData, Bool.or_false]
  · rw [writeWord, wordOvf_or, hovf, wordOvf_atData, Bool.or_false]
  · rw [writeWord, wordHv_or, hhv, Bool.true_or]
  · rw [writeWord, wordWe_or, hwe, Bool.true_or]
  · rw [writeWord, wordAddr_or, haddr, wordAddr_atData]
    exact BitVec.or_zero
  · rw [writeWord, wordData_or, hdata, wordData_atData]
    exact BitVec.zero_or

/-- A read word holds the read of its address. -/
theorem decodeOps_readWord (n : Nat) (a : Byte) :
    decodeOps n (readWord a) = [.onop, decodeRead n a] := by
  obtain ⟨hrst, hovf, hhv, hwe, haddr⟩ := readWord_fields a
  rw [decodeOps_of_read hrst hhv hwe, decodeEvent_of_not_ovf hovf, haddr]

/-- A write word holds the write of its data to its address. -/
theorem decodeOps_writeWord (n : Nat) (a d : Byte) :
    decodeOps n (writeWord a d) = [.onop, decodeWrite n a d] := by
  obtain ⟨hrst, hovf, hhv, hwe, haddr, hdata⟩ := writeWord_fields a d
  rw [decodeOps_of_write hrst hhv hwe, decodeEvent_of_not_ovf hovf, haddr, hdata]

/-- An event operation beside a read changes the event slot only. -/
theorem decodeOps_event_readWord {e : Instr} (he : e.slot = .event) (n : Nat) (a : Byte) :
    decodeOps n (encode e ||| readWord a) = [e, decodeRead n a] := by
  cases e <;> simp only [Instr.slot, reduceCtorEq] at he
  case onop => exact (congrArg (decodeOps n) BitVec.zero_or).trans (decodeOps_readWord n a)
  case ovf =>
    have hfields : ∀ a : Byte, wordRst (encode .ovf ||| readWord a) = false ∧
        wordOvf (encode .ovf ||| readWord a) = true ∧ wordHv (encode .ovf ||| readWord a) = true ∧
        wordWe (encode .ovf ||| readWord a) = false ∧
        wordAddr (encode .ovf ||| readWord a) = a := by decide
    obtain ⟨hrst, hovf, hhv, hwe, haddr⟩ := hfields a
    rw [decodeOps_of_read hrst hhv hwe, decodeEvent, if_pos hovf, haddr]

/-! ### The reads, region by region (30_encoding.md R74) -/

/-- At the address of no register, a read is one of the two tables or reserved. -/
theorem decodeRead_of_not_register {n : Nat} {a : Byte} (hreg : a.toNat < 0x01 ∨ 0x06 < a.toNat)
    (hthr : a.toNat < 0x10 ∨ 0x1B < a.toNat) :
    decodeRead n a =
      if addrWindow a = 0b01 ∧ (addrIndex a).toNat < n then
        if addrHigh a then .rdScaledh (addrIndex a) else .rdScaledl (addrIndex a)
      else if addrWindow a = 0b10 ∧ (addrIndex a).toNat < n then
        if addrHigh a then .rdRefh (addrIndex a) else .rdRefl (addrIndex a)
      else .hRsvdr a := by
  have hthr' : ¬(addrGroup a = 0b0001 ∧ (addrPhase a).toNat < 3) := by
    rw [threshold_addr_iff]
    omega
  rw [decodeRead, if_neg (by bv_omega), if_neg (by bv_omega), if_neg (by bv_omega),
    if_neg (by bv_omega), if_neg (by bv_omega), if_neg (by bv_omega), if_neg hthr']

/-- A read in the window of the scaled table, of an entry below `n`. -/
theorem decodeRead_scaled {n : Nat} {a : Byte}
    (h : addrWindow a = 0b01 ∧ (addrIndex a).toNat < n) :
    decodeRead n a =
      if addrHigh a then .rdScaledh (addrIndex a) else .rdScaledl (addrIndex a) := by
  have hr : 0x40 ≤ a.toNat ∧ a.toNat < 0x40 + 2 * n ∧ a.toNat ≤ 0x7F :=
    (window_index_iff a 0b01 n).mp h
  rw [decodeRead_of_not_register (by omega) (by omega), if_pos h]

/-- A read in the window of the reference table, of an entry below `n`. -/
theorem decodeRead_ref {n : Nat} {a : Byte}
    (h : addrWindow a = 0b10 ∧ (addrIndex a).toNat < n) :
    decodeRead n a = if addrHigh a then .rdRefh (addrIndex a) else .rdRefl (addrIndex a) := by
  have hr : 0x80 ≤ a.toNat ∧ a.toNat < 0x80 + 2 * n ∧ a.toNat ≤ 0xBF :=
    (window_index_iff a 0b10 n).mp h
  have hscaled : ¬(addrWindow a = 0b01 ∧ (addrIndex a).toNat < n) := by
    rw [h.1]
    exact fun h' => absurd h'.1 (by decide)
  rw [decodeRead_of_not_register (by omega) (by omega), if_neg hscaled, if_pos h]

/-- The read of a register or of a threshold is not reserved. -/
theorem decodeRead_register_ne {n : Nat} {a : Byte}
    (h : (0x01 ≤ a.toNat ∧ a.toNat ≤ 0x06) ∨ (0x10 ≤ a.toNat ∧ a.toNat ≤ 0x1B)) :
    decodeRead n a ≠ .hRsvdr a := by
  rcases h with hreg | hthr
  · have hmem : a = 0x01 ∨ a = 0x02 ∨ a = 0x03 ∨ a = 0x04 ∨ a = 0x05 ∨ a = 0x06 := by bv_omega
    rcases hmem with rfl | rfl | rfl | rfl | rfl | rfl <;> exact nofun
  · have hmem := threshold_addr_cases a ((threshold_addr_iff a).mpr hthr)
    simp only [List.mem_cons, List.not_mem_nil, or_false] at hmem
    rcases hmem with rfl | rfl | rfl | rfl | rfl | rfl | rfl | rfl | rfl | rfl | rfl | rfl <;>
      exact nofun

/-- The reserved reads: the address of no register and in neither table. -/
theorem decodeRead_eq_hRsvdr_iff {n : Nat} {a : Byte} :
    decodeRead n a = .hRsvdr a ↔
      (a.toNat < 0x01 ∨ 0x06 < a.toNat) ∧ (a.toNat < 0x10 ∨ 0x1B < a.toNat) ∧
        ¬(0x40 ≤ a.toNat ∧ a.toNat < 0x40 + 2 * n ∧ a.toNat ≤ 0x7F) ∧
        ¬(0x80 ≤ a.toNat ∧ a.toNat < 0x80 + 2 * n ∧ a.toNat ≤ 0xBF) := by
  have hscaled := window_index_iff a 0b01 n
  have href := window_index_iff a 0b10 n
  by_cases hreg : (0x01 ≤ a.toNat ∧ a.toNat ≤ 0x06) ∨ (0x10 ≤ a.toNat ∧ a.toNat ≤ 0x1B)
  · exact iff_of_false (decodeRead_register_ne hreg) (by omega)
  · rw [decodeRead_of_not_register (by omega) (by omega)]
    split_ifs with hs hh hr hh
    · exact iff_of_false nofun fun ⟨_, _, hout, _⟩ => hout (hscaled.mp hs)
    · exact iff_of_false nofun fun ⟨_, _, hout, _⟩ => hout (hscaled.mp hs)
    · exact iff_of_false nofun fun ⟨_, _, _, hout⟩ => hout (href.mp hr)
    · exact iff_of_false nofun fun ⟨_, _, _, hout⟩ => hout (href.mp hr)
    · exact iff_of_true rfl ⟨by omega, by omega, mt hscaled.mpr hs, mt href.mpr hr⟩

/-! ### The writes, region by region (30_encoding.md R74) -/

/-- A write in the window of the scaled table, to an entry below `n`. -/
theorem decodeWrite_scaled {n : Nat} {a : Byte} (d : Byte)
    (h : addrWindow a = 0b01 ∧ (addrIndex a).toNat < n) :
    decodeWrite n a d =
      if addrHigh a then .wrScaledh (addrIndex a) d else .wrScaledl (addrIndex a) d := by
  have hr : 0x40 ≤ a.toNat ∧ a.toNat < 0x40 + 2 * n ∧ a.toNat ≤ 0x7F :=
    (window_index_iff a 0b01 n).mp h
  rw [decodeWrite, if_neg (by bv_omega), if_neg (by bv_omega), if_pos h]

/-- The reserved writes: a reserved code at `CTRL` (45_drive_state_machine.md R165), or an address
that is not `CTRL`, not `DIVTGT` and not in the scaled table. -/
theorem decodeWrite_eq_hRsvdw_iff {n : Nat} {a d : Byte} :
    decodeWrite n a d = .hRsvdw a d ↔
      (a.toNat = 0x00 ∧ (d.toNat = 0x00 ∨ 0x05 ≤ d.toNat)) ∨
      (a.toNat ≠ 0x00 ∧ a.toNat ≠ 0x02 ∧
        ¬(0x40 ≤ a.toNat ∧ a.toNat < 0x40 + 2 * n ∧ a.toNat ≤ 0x7F)) := by
  have hscaled := window_index_iff a 0b01 n
  unfold decodeWrite
  split_ifs with h0 h1 h2 h3 h4 h5 hs hh
  · exact iff_of_false nofun (by bv_omega)
  · exact iff_of_false nofun (by bv_omega)
  · exact iff_of_false nofun (by bv_omega)
  · exact iff_of_false nofun (by bv_omega)
  · exact iff_of_true rfl (.inl (by bv_omega))
  · exact iff_of_false nofun (by bv_omega)
  · exact iff_of_false nofun (by have := hscaled.mp hs; bv_omega)
  · exact iff_of_false nofun (by have := hscaled.mp hs; bv_omega)
  · exact iff_of_true rfl (.inr ⟨by bv_omega, by bv_omega, mt hscaled.mpr hs⟩)

/-! ### The two addresses of a 16-bit field (20_memory.md R53) -/

/-- The addresses of the two bytes of a scaled entry, put together from their fields. -/
theorem WideRead.addr_scaled (i : BitVec 5) :
    (WideRead.scaled i).addr = 0x40 ||| i.setWidth 8 <<< 1 ∧
      (WideRead.scaled i).addr + (1 : Byte) = 0x41 ||| i.setWidth 8 <<< 1 := by
  revert i
  decide

/-- The addresses of the two bytes of a reference entry, put together from their fields. -/
theorem WideRead.addr_ref (i : BitVec 5) :
    (WideRead.ref i).addr = 0x80 ||| i.setWidth 8 <<< 1 ∧
      (WideRead.ref i).addr + (1 : Byte) = 0x81 ||| i.setWidth 8 <<< 1 := by
  revert i
  decide

/-- The canonical words of the two reads of a field are the reads of its two addresses. -/
theorem WideRead.encode_low_high (r : WideRead) :
    encode r.low = readWord r.addr ∧ encode r.high = readWord (r.addr + 1) := by
  cases r with
  | scaled i => revert i; decide
  | ref i => revert i; decide
  | rise p => revert p; decide
  | fall p => revert p; decide

/-- A read of the first address of a field is the read of its low byte, a read of the second one the
read of its high byte. -/
theorem WideRead.decodeRead_addr {n : Nat} {r : WideRead} (h : r.low.wellFormed n = true) :
    decodeRead n r.addr = r.low ∧ decodeRead n (r.addr + 1) = r.high := by
  cases r with
  | scaled i =>
    have hi : i.toNat < n := of_decide_eq_true h
    obtain ⟨⟨hw, hx, hh⟩, ⟨hw', hx', hh'⟩, -⟩ := entryAddr_fields i
    obtain ⟨ha, ha'⟩ := addr_scaled i
    rw [ha', ha, decodeRead_scaled ⟨hw, hx.symm ▸ hi⟩, decodeRead_scaled ⟨hw', hx'.symm ▸ hi⟩,
      hx, hh, hx', hh']
    exact ⟨rfl, rfl⟩
  | ref i =>
    have hi : i.toNat < n := of_decide_eq_true h
    obtain ⟨-, -, ⟨hw, hx, hh⟩, hw', hx', hh'⟩ := entryAddr_fields i
    obtain ⟨ha, ha'⟩ := addr_ref i
    rw [ha', ha, decodeRead_ref ⟨hw, hx.symm ▸ hi⟩, decodeRead_ref ⟨hw', hx'.symm ▸ hi⟩,
      hx, hh, hx', hh']
    exact ⟨rfl, rfl⟩
  | rise p =>
    have hp : p.toNat < 3 := of_decide_eq_true h
    match p, hp with
    | 0, _ => exact ⟨rfl, rfl⟩
    | 1, _ => exact ⟨rfl, rfl⟩
    | 2, _ => exact ⟨rfl, rfl⟩
  | fall p =>
    have hp : p.toNat < 3 := of_decide_eq_true h
    match p, hp with
    | 0, _ => exact ⟨rfl, rfl⟩
    | 1, _ => exact ⟨rfl, rfl⟩
    | 2, _ => exact ⟨rfl, rfl⟩

/-- The words of the two reads of a field that exists hold these reads. -/
theorem WideRead.decodeOps_low_high {n : Nat} {r : WideRead} (h : r.low.wellFormed n = true) :
    decodeOps n (encode r.low) = [.onop, r.low] ∧
      decodeOps n (encode r.high) = [.onop, r.high] := by
  obtain ⟨hlow, hhigh⟩ := decodeRead_addr h
  rw [r.encode_low_high.1, r.encode_low_high.2, decodeOps_readWord, decodeOps_readWord, hlow, hhigh]
  exact ⟨rfl, rfl⟩

/-- The canonical words of the two writes of a scaled entry are the writes to its two addresses. -/
theorem encode_wrScaled (i : BitVec 5) (d : Byte) :
    encode (.wrScaledl i d) = writeWord (WideRead.scaled i).addr d ∧
      encode (.wrScaledh i d) = writeWord ((WideRead.scaled i).addr + 1) d := by
  have hw : ∀ i : BitVec 5, 0x34000 ||| atIndex i = 0x30000 ||| atAddr (WideRead.scaled i).addr ∧
      0x34100 ||| atIndex i = 0x30000 ||| atAddr ((WideRead.scaled i).addr + 1) := by decide
  exact ⟨congrArg (· ||| atData d) (hw i).1, congrArg (· ||| atData d) (hw i).2⟩

/-- The words of the two writes of an entry below `n` hold these writes. -/
theorem decodeOps_wrScaled {n : Nat} {i : BitVec 5} (d : Byte) (hi : i.toNat < n) :
    decodeOps n (encode (.wrScaledl i d)) = [.onop, .wrScaledl i d] ∧
      decodeOps n (encode (.wrScaledh i d)) = [.onop, .wrScaledh i d] := by
  obtain ⟨⟨hw, hx, hh⟩, ⟨hw', hx', hh'⟩, -⟩ := entryAddr_fields i
  obtain ⟨ha, ha'⟩ := WideRead.addr_scaled i
  rw [(encode_wrScaled i d).1, (encode_wrScaled i d).2, decodeOps_writeWord, decodeOps_writeWord,
    ha', ha, decodeWrite_scaled d ⟨hw, hx.symm ▸ hi⟩, decodeWrite_scaled d ⟨hw', hx'.symm ▸ hi⟩,
    hx, hh, hx', hh']
  exact ⟨rfl, rfl⟩

end Sys2Proof.Machine
end

section
/-! PROOFS. The host writes (40_host_access.md R105 to R107, R109). -/

namespace Sys2Proof.Machine

/-- Settles O30: the write word by its address, the store by the two laws of a memory write. -/
theorem writeScaledStoresOneByte : Obligations.WriteScaledStoresOneByte := by
  intro s i d hwf
  constructor
  · intro hi
    obtain ⟨hlow, hhigh⟩ := decodeOps_wrScaled d hi
    refine ⟨hlow, hhigh, ?_, ?_⟩
    · rw [exec_wrScaledl, setScaledByte_of_lt _ _ hi]
      exact ⟨_, rfl, rfl, Memory.read_write_same _ d hwf, fun a ha => Memory.read_write_other d ha⟩
    · rw [exec_wrScaledh, setScaledByte_of_lt _ _ hi]
      exact ⟨_, rfl, rfl, Memory.read_write_same _ d hwf, fun a ha => Memory.read_write_other d ha⟩
  · intro hi
    rw [exec_wrScaledl, exec_wrScaledh, setScaledByte_of_le _ _ hi, setScaledByte_of_le _ _ hi]
    exact ⟨rfl, rfl⟩

/-- Settles O37: at most 32 entries, so the table ends inside its window. -/
theorem reservedWritesDoNothing : Obligations.ReservedWritesDoNothing := by
  intro s a d hn
  refine ⟨?_, exec_hRsvdw s a d⟩
  rw [decodeWrite_eq_hRsvdw_iff]
  omega

/-- Settles O28: the write of address `0x02`. -/
theorem writeDivtgtStoresTheByte : Obligations.WriteDivtgtStoresTheByte :=
  fun s d => ⟨decodeOps_writeWord s.cfg.n 0x02 d, exec_wrDivtgt s d⟩

end Sys2Proof.Machine
end

section
/-! PROOFS. The host reads (40_host_access.md R91 to R104, R108). -/

namespace Sys2Proof.Machine

/-! ### The bytes that operands select -/

/-- A byte of an entry below `N` is the byte of memory at its address. -/
theorem scaledByte_of_lt {s : State} {i : BitVec 5} (high : Bool) (h : i.toNat < s.cfg.n) :
    scaledByte s i high = Memory.read s.mem (0x40 + entryByte i.toNat high) := if_pos h

/-- A byte of an entry that does not exist reads `0x00`. -/
theorem scaledByte_of_le {s : State} {i : BitVec 5} (high : Bool) (h : s.cfg.n ≤ i.toNat) :
    scaledByte s i high = 0x00 := if_neg (by omega)

/-- A byte of a reference entry below `N` is the byte of its 16-bit number. -/
theorem refByte_of_lt {s : State} {i : BitVec 5} (high : Bool) (h : i.toNat < s.cfg.n) :
    refByte s i high = selectByte (refWord s.cfg i.toNat) high := if_pos h

/-- A byte of a reference entry that does not exist reads `0x00`. -/
theorem refByte_of_le {s : State} {i : BitVec 5} (high : Bool) (h : s.cfg.n ≤ i.toNat) :
    refByte s i high = 0x00 := if_neg (by omega)

/-- A byte of the threshold of any phase number; the threshold of `p = 3` reads as 0. -/
theorem thresholdByte_eq_getD (x : PerPhase Half) (p : BitVec 2) (high : Bool) :
    thresholdByte x p high = selectByte ((x.at? p).getD 0) high := by
  by_cases hp : p.toNat < 3
  · exact thresholdByte_eq x hp high
  · obtain rfl : p = 3 := by bv_omega
    have hzero : ∀ high, (0x00 : Byte) = selectByte 0 high := by decide
    exact hzero high

/-- Every entry of a legal reference table is a non-negative 16-bit number (00_scope.md R7 item 2). -/
theorem refAt_le {c : Config} (h : c.BlockLegal) (i : Nat) : c.refAt i ≤ 32767 := by
  obtain ⟨-, ⟨-, hle⟩, -⟩ := h
  rw [Config.refAt]
  by_cases hi : i < c.ref.length
  · rw [List.getD_eq_getElem _ _ hi]
    exact hle _ (List.getElem_mem hi)
  · rw [List.getD_eq_default _ _ (by omega)]
    omega

/-- A legal reference entry is stored as it is. -/
theorem refWord_toNat {c : Config} (h : c.BlockLegal) (i : Nat) :
    (refWord c i).toNat = c.ref.getD i 0 := by
  have hle := refAt_le h i
  rw [refWord, BitVec.toNat_ofNat, Nat.mod_eq_of_lt (by omega), Config.refAt]

/-- Settles O35: the bytes of a 16-bit number that is below `2^15`. -/
theorem readRefReturnsTheReferenceByte : Obligations.ReadRefReturnsTheReferenceByte := by
  intro s i hlegal
  constructor
  · intro hi
    obtain ⟨hlow, hhigh⟩ := WideRead.decodeOps_low_high (r := .ref i) (decide_eq_true hi)
    have href := refWord_toNat hlegal i.toNat
    have hle : s.cfg.ref.getD i.toNat 0 ≤ 32767 := refAt_le hlegal i.toNat
    refine ⟨hlow, hhigh, ⟨_, exec_rdRefl s i, rfl, ?_⟩, ⟨_, exec_rdRefh s i, rfl, ?_⟩⟩
    · dsimp only
      rw [refByte_of_lt _ hi, selectByte, if_neg nofun, lowByte_toNat, href]
    · dsimp only
      rw [refByte_of_lt _ hi, selectByte, if_pos rfl, highByte_toNat, href]
      omega
  · intro hi
    rw [exec_rdRefl, exec_rdRefh, refByte_of_le _ hi, refByte_of_le _ hi]
    exact ⟨rfl, rfl⟩

/-- Settles O36: at most 32 entries, so each table ends inside its window. -/
theorem reservedReadsReturnZero : Obligations.ReservedReadsReturnZero := by
  intro s a hn
  refine ⟨?_, exec_hRsvdr s a⟩
  rw [decodeRead_eq_hRsvdr_iff]
  omega

/-- Settles O31: the read of address `0x01`; the status byte, drive state by drive state and
direction by direction. -/
theorem readStatusReturnsTheStatusByte : Obligations.ReadStatusReturnsTheStatusByte := by
  intro s
  refine ⟨decodeOps_readWord s.cfg.n 0x01, ?_⟩
  rw [exec_rdStatus]
  refine congrArg (fun b => Host.Outcome.next { s with rdata := b }) ?_
  cases hdrive : s.drive <;> cases hdir : s.dir <;>
    simp only [State.statusByte, State.irqEn, State.tmrRun, State.outOff, hdrive, hdir] <;> decide

/-- An index that fits the byte reads as stored. -/
theorem indexByte_toNat {i : Nat} (h : i ≤ 255) : (BitVec.ofNat 8 i).toNat = i := by
  rw [BitVec.toNat_ofNat, Nat.mod_eq_of_lt (by omega)]

/-- Settles O32: the reads of the addresses `0x02` to `0x06`. -/
theorem readScalarsReturnTheRegisters : Obligations.ReadScalarsReturnTheRegisters := by
  intro s
  have hword := decodeOps_readWord s.cfg.n
  exact ⟨hword 0x02, hword 0x03, hword 0x04, hword 0x05, hword 0x06, exec_rdDivtgt s, exec_rdCnt s,
    ⟨_, exec_rdIdx0 s, rfl, indexByte_toNat⟩, ⟨_, exec_rdIdx120 s, rfl, indexByte_toNat⟩,
    ⟨_, exec_rdIdx240 s, rfl, indexByte_toNat⟩⟩

/-- Settles O33: the phase number selects its pair of thresholds, `p = 3` the pair of zeros. -/
theorem readThresholdsReturnTheirBytes : Obligations.ReadThresholdsReturnTheirBytes := by
  intro s p r f hpair
  have hfield : (s.rise.at? p).getD 0 = r ∧ (s.fall.at? p).getD 0 = f := by
    rcases hpair with ⟨rfl, rfl, rfl⟩ | ⟨rfl, rfl, rfl⟩ | ⟨rfl, rfl, rfl⟩ | ⟨rfl, rfl, rfl⟩ <;>
      exact ⟨rfl, rfl⟩
  obtain ⟨rfl, rfl⟩ := hfield
  rw [exec_rdRisel, exec_rdRiseh, exec_rdFalll, exec_rdFallh]
  simp only [thresholdByte_eq_getD]
  refine ⟨rfl, rfl, rfl, rfl, fun hp => ?_, fun _ => ?_⟩
  · have hwf : decide (p.toNat < 3) = true := decide_eq_true (by bv_omega)
    obtain ⟨hriseLow, hriseHigh⟩ := WideRead.decodeOps_low_high (r := .rise p) hwf
    obtain ⟨hfallLow, hfallHigh⟩ := WideRead.decodeOps_low_high (r := .fall p) hwf
    exact ⟨hriseLow, hriseHigh, hfallLow, hfallHigh⟩
  · have hword := decodeOps_readWord s.cfg.n
    exact ⟨hword 0x1C, hword 0x1D, hword 0x1E, hword 0x1F⟩

/-- Settles O34: the two reads of a scaled entry return the bytes at its two addresses. -/
theorem readScaledReturnsTheTableByte : Obligations.ReadScaledReturnsTheTableByte := by
  intro s i
  rw [exec_rdScaledl, exec_rdScaledh]
  constructor
  · intro hi
    obtain ⟨hlow, hhigh⟩ := WideRead.decodeOps_low_high (r := .scaled i) (decide_eq_true hi)
    rw [scaledByte_of_lt _ hi, scaledByte_of_lt _ hi]
    exact ⟨hlow, hhigh, rfl, rfl⟩
  · intro hi
    rw [scaledByte_of_le _ hi, scaledByte_of_le _ hi]
    exact ⟨rfl, rfl⟩

end Sys2Proof.Machine
end

section
/-! PROOFS. The 16-bit reads (40_host_access.md R110): each of the two steps runs its event operation
and then returns one byte of the field in the state it leaves. -/

namespace Sys2Proof.Machine

/-- No event operation writes the configuration (10_state.md R39). -/
theorem exec_event_cfg {e : Instr} {s m : State} (he : e.slot = .event)
    (h : exec e s = .next m) : m.cfg = s.cfg := by
  cases e <;> simp only [Instr.slot, reduceCtorEq] at he
  case onop => cases (exec_onop s).symm.trans h; rfl
  case ovf =>
    rcases exec_ovf_cases s with ⟨-, hx⟩ | ⟨-, -, hx⟩ | ⟨-, -, -, -, -, -, hx⟩ | ⟨-, -, -, hx⟩ <;>
      cases hx.symm.trans h <;> rfl

/-- An event operation beside a read runs first; the read runs on the state it leaves
(30_encoding.md R72). -/
theorem runWord_event_readWord {e : Instr} {s t : State} (he : e.slot = .event) (a : Byte) :
    runWord (encode e ||| readWord a) s = .next t ↔
      ∃ m, exec e s = .next m ∧ exec (decodeRead m.cfg.n a) m = .next t := by
  rw [runWord, decodeOps_event_readWord he, runOps_cons, andThen_eq_next]
  refine exists_congr fun m => and_congr_right fun hm => ?_
  rw [runOps_cons, andThen_runOps_nil, exec_event_cfg he hm]

section
variable {r : WideRead} {e : Instr} {s t : State}

/-- The first step: `RDATA` is the low byte of the field in the state it leaves. -/
theorem WideRead.runWord_low (hwf : r.low.wellFormed s.cfg.n = true) (he : e.slot = .event) :
    runWord (encodePair e r.low) s = .next t ↔
      ∃ m, exec e s = .next m ∧ t = { m with rdata := lowByte (r.pattern m) } := by
  rw [encodePair, r.encode_low_high.1, runWord_event_readWord he]
  refine exists_congr fun m => and_congr_right fun hm => ?_
  have hwf' : r.low.wellFormed m.cfg.n = true := (exec_event_cfg he hm).symm ▸ hwf
  rw [(decodeRead_addr hwf').1, r.exec_low m hwf', Host.Outcome.next.injEq]
  exact eq_comm

/-- The second step: `RDATA` is the high byte of the field in the state it leaves. -/
theorem WideRead.runWord_high (hwf : r.low.wellFormed s.cfg.n = true) (he : e.slot = .event) :
    runWord (encodePair e r.high) s = .next t ↔
      ∃ m, exec e s = .next m ∧ t = { m with rdata := highByte (r.pattern m) } := by
  rw [encodePair, r.encode_low_high.2, runWord_event_readWord he]
  refine exists_congr fun m => and_congr_right fun hm => ?_
  have hwf' : r.low.wellFormed m.cfg.n = true := (exec_event_cfg he hm).symm ▸ hwf
  rw [(decodeRead_addr hwf').2, r.exec_high m hwf', Host.Outcome.next.injEq]
  exact eq_comm

end

/-- The output record is no part of a field. -/
theorem WideRead.pattern_record (r : WideRead) (s : State) (b : Byte) (c : Bool) :
    r.pattern { s with rdata := b, cmpStb := c } = r.pattern s :=
  (pattern_cmpStb { s with rdata := b } r c).trans (pattern_rdata s r b)

/-- With no event a 16-bit read answers the field itself and changes the output record only. -/
theorem wideRead_without_event {r : WideRead} {s : State}
    (hwf : r.low.wellFormed s.cfg.n = true) :
    wideRead r .onop .onop s = .next (r.value (r.pattern s),
      { s with rdata := highByte (r.pattern s), cmpStb := false }) := by
  have hlow : runWord (encodePair .onop r.low) s =
      .next { s with cmpStb := false, rdata := lowByte (r.pattern s) } :=
    (r.runWord_low hwf rfl).mpr ⟨_, exec_onop s, by simp only [WideRead.pattern_cmpStb]⟩
  have hhigh : runWord (encodePair .onop r.high)
      { s with cmpStb := false, rdata := lowByte (r.pattern s) } =
      .next { s with cmpStb := false, rdata := highByte (r.pattern s) } :=
    (r.runWord_high (s := { s with cmpStb := false, rdata := lowByte (r.pattern s) }) hwf rfl).mpr
      ⟨_, exec_onop _, by simp only [WideRead.pattern_record]⟩
  refine (wideRead_eq_next s r).mpr ⟨_, hlow, hhigh, ?_⟩
  rw [WideRead.result, readPair_halves]

/-- Settles O53: each step returns one byte of the field in the state it leaves; the two bytes of one
state join to the field, and a reference entry is the same in every state of one configuration. -/
theorem wideReadsJoinTwoBytes : Obligations.WideReadsJoinTwoBytes := by
  intro s r hlegal hwf
  obtain ⟨hlow, hhigh⟩ := WideRead.decodeRead_addr hwf
  refine ⟨r.addr_even, hlow, hhigh, ?_, ⟨highByte (r.pattern s), ?_⟩, ?_⟩
  · rw [WideRead.words, r.encode_low_high.1, r.encode_low_high.2]
    rfl
  · rw [wideRead_without_event hwf]
    cases r with
    | scaled i => rfl
    | ref i => simp only [WideRead.value, WideRead.pattern, refWord_toNat hlegal]
    | rise p => rfl
    | fall p => rfl
  · intro e1 e2 s' t u he1 he2 hcfg ht hu
    obtain ⟨m, hm, rfl⟩ := (WideRead.runWord_low hwf he1).mp ht
    obtain ⟨m', hm', rfl⟩ := (WideRead.runWord_high (hcfg.symm ▸ hwf) he2).mp hu
    have hcfg1 := exec_event_cfg he1 hm
    have hcfg2 := exec_event_cfg he2 hm'
    simp only [WideRead.pattern_rdata]
    cases r with
    | scaled i => rfl
    | ref i =>
      simp only [WideRead.result, WideRead.value, WideRead.pattern, hcfg1, hcfg2, hcfg,
        readPair_halves, refWord_toNat hlegal]
    | rise p => rfl
    | fall p => rfl

end Sys2Proof.Machine
end

section
/-! PROOFS. The rounding of the host's arithmetic (41_waveform_scaling.md R114): `Round` is odd, so
its distance to the argument and the side a tie takes need proof for `q >= 0` only. -/

namespace Sys2Proof.Machine

theorem roundAway_of_nonneg {q : Rat} (h : 0 ≤ q) : roundAway q = (q + 1 / 2).floor := if_pos h

theorem roundAway_of_neg {q : Rat} (h : q < 0) : roundAway q = -(-q + 1 / 2).floor :=
  if_neg (not_le.mpr h)

/-- On the non-negative rationals `Round` is Mathlib's `round`, whose ties all go upwards. -/
theorem roundAway_eq_round {q : Rat} (h : 0 ≤ q) : roundAway q = round q :=
  (roundAway_of_nonneg h).trans (round_eq q).symm

theorem roundAway_zero : roundAway 0 = 0 := (roundAway_eq_round le_rfl).trans round_zero

theorem roundAway_neg (q : Rat) : roundAway (-q) = -roundAway q := by
  rcases lt_trichotomy q 0 with h | rfl | h
  · rw [roundAway_of_neg h, roundAway_of_nonneg (by linarith), neg_neg]
  · rw [neg_zero, roundAway_zero, neg_zero]
  · rw [roundAway_of_nonneg h.le, roundAway_of_neg (by linarith), neg_neg]

theorem roundAway_near_and_tie_of_nonneg {q : Rat} (h : 0 ≤ q) :
    |(roundAway q : Rat) - q| ≤ 1 / 2 ∧
      (|(roundAway q : Rat) - q| = 1 / 2 → |q| < |(roundAway q : Rat)|) := by
  obtain ⟨hlower, hupper⟩ := round_eq_iff.mp (roundAway_eq_round h).symm
  refine ⟨abs_le.mpr ⟨by linarith, by linarith⟩, fun htie => ?_⟩
  have hlt : q < roundAway q := by
    rcases (abs_eq (by norm_num)).mp htie with hup | hdown
    · linarith
    · linarith
  rwa [abs_of_nonneg h, abs_of_pos (h.trans_lt hlt)]

theorem roundAway_near_and_tie (q : Rat) :
    |(roundAway q : Rat) - q| ≤ 1 / 2 ∧
      (|(roundAway q : Rat) - q| = 1 / 2 → |q| < |(roundAway q : Rat)|) := by
  rcases le_total 0 q with h | h
  · exact roundAway_near_and_tie_of_nonneg h
  · have hdist : |(roundAway (-q) : Rat) - -q| = |(roundAway q : Rat) - q| := by
      rw [roundAway_neg, Int.cast_neg, neg_sub_neg, abs_sub_comm]
    have hmag : |(roundAway (-q) : Rat)| = |(roundAway q : Rat)| := by
      rw [roundAway_neg, Int.cast_neg, abs_neg]
    rw [← hdist, ← hmag, ← abs_neg q]
    exact roundAway_near_and_tie_of_nonneg (neg_nonneg.mpr h)

/-- Settles O47: the two formulas, the distance of at most 1/2, and a tie away from zero. -/
theorem roundIsNearestTiesAway : Obligations.RoundIsNearestTiesAway := fun q =>
  ⟨roundAway_of_nonneg, roundAway_of_neg, roundAway_near_and_tie q⟩

end Sys2Proof.Machine
end

section
/-! PROOFS. The minimum-frequency scenario (41_waveform_scaling.md R118): the clamp of R115 raises a
frequency to `MIN_FREQ`, and item 8 of 00_scope.md R7 brings the amplitude there to `MIN_AMP`. -/

namespace Sys2Proof.Machine

theorem clampNat_of_le_lo {v lo hi : Nat} (hv : v ≤ lo) (hlo : lo ≤ hi) : clampNat v lo hi = lo := by
  rw [clampNat, max_eq_right hv, min_eq_left hlo]

theorem clampRat_of_le_lo {v lo hi : Rat} (hv : v ≤ lo) (hlo : lo ≤ hi) : clampRat v lo hi = lo := by
  rw [clampRat, max_eq_right hv, min_eq_left hlo]

theorem amplitude_of_le_minFreq {c : Config} {f : BitVec 16} (h : c.Legal)
    (hf : f.toNat ≤ c.minFreq) : amplitude c f = c.minAmp := by
  obtain ⟨-, ⟨⟨-, hfreq⟩, -, -, ⟨-, hamp⟩, -, -⟩, hitem8⟩ := h
  have hfc : clampedFreq c f = c.minFreq := clampNat_of_le_lo hf hfreq
  rw [amplitude, hfc]
  exact clampRat_of_le_lo hitem8 hamp

/-- Settles O49: 20 is the minimum frequency, so the amplitude is `MIN_AMP`, a tenth. -/
theorem minimumFrequencyGivesMinimumAmplitude :
    Obligations.MinimumFrequencyGivesMinimumAmplitude := by
  intro c hlegal hfreq hminAmp
  have hamp : amplitude c 20 = 1 / 10 :=
    (amplitude_of_le_minFreq hlegal (hfreq.symm ▸ le_rfl)).trans hminAmp
  refine ⟨hamp, fun i _ => ?_⟩
  rw [scaledOf, hamp, mul_one_div]

end Sys2Proof.Machine
end

section
/-! PROOFS. The overflow event (42_overflow_divider.md R131, R133): of the outcomes of
`exec_ovf_cases` all but the lost event are in Running. -/

namespace Sys2Proof.Machine

/-- Settles O13: outside Running the event is lost, the one outcome left. -/
theorem overflowOutsideRunningIsLost : Obligations.OverflowOutsideRunningIsLost := by
  intro s hdrive
  rcases exec_ovf_cases s with ⟨-, hlost⟩ | ⟨hrun, -⟩ | ⟨hrun, -⟩ | ⟨hrun, -⟩
  · exact hlost
  · exact absurd hrun hdrive
  · exact absurd hrun hdrive
  · exact absurd hrun hdrive

end Sys2Proof.Machine
end

section
/-! PROOFS. The tick (44_phase_index_tracker.md R150): the thresholds of a 16-bit sample fit 16 bits
(43_pwm_output_driver.md R141), so each phase stores them as the driver computes them. -/

namespace Sys2Proof.Machine

section
variable {s : State}

/-- With no index above `N` an overflow event at the target is the tick (42_overflow_divider.md
R131). -/
theorem exec_ovf_of_tick (hn : 0 < s.cfg.n) (hrun : s.drive = .running)
    (hcnt : s.divtgt.toNat ≤ s.cnt.toNat + 1) (h0 : s.idx.ph0 ≤ s.cfg.n)
    (h1 : s.idx.ph1 ≤ s.cfg.n) (h2 : s.idx.ph2 ≤ s.cfg.n) :
    exec .ovf s = .next { tickState s with cnt := 0x00, cmpStb := true } := by
  rcases exec_ovf_cases s with
    ⟨hstop, -⟩ | ⟨-, hbelow, -⟩ | ⟨-, -, -, -, -, -, htick⟩ | ⟨-, -, habove, -⟩
  · exact absurd hrun hstop
  · omega
  · exact htick
  · omega

/-- Neither threshold of a sample is truncated (43_pwm_output_driver.md R141). -/
theorem deadTime_stored_toNat {c : Config} (hc : c.BlockLegal) {v : Int} (hv : v ≤ 32767) :
    ((trunc16 (deadTime c v).1).toNat : Int) = (deadTime c v).1 ∧
      ((trunc16 (deadTime c v).2).toNat : Int) = (deadTime c v).2 := by
  obtain ⟨-, -, hsub, hadd, -⟩ := hc
  obtain ⟨hnonneg, hle, -⟩ := deadTimeRising_bounds v hv hsub
  dsimp only [deadTime]
  exact ⟨trunc16_toNat hnonneg (by omega), trunc16_toNat (by omega) (by omega)⟩

/-- The dead-time function, applied to a scaled entry, gives the thresholds of its two bytes. -/
theorem thresholdsOf_deadTime_sample (hc : s.cfg.BlockLegal) (j : Nat) :
    ThresholdsOf s j (trunc16 (deadTime s.cfg (s.sample j)).1)
      (trunc16 (deadTime s.cfg (s.sample j)).2) := by
  have hv : s.sample j ≤ 32767 := (sext16_bounds (s.scaled j)).2
  obtain ⟨hrise, hfall⟩ := deadTime_stored_toNat hc hv
  refine ⟨hrise, ?_⟩
  have hsum : (deadTime s.cfg (s.sample j)).2 =
      (deadTime s.cfg (s.sample j)).1 + s.cfg.deadAdd := rfl
  omega

/-- What the tick leaves in a phase of index `i`: the wrap of R150 line 1 comes before the use. -/
theorem phaseTicked_wrapIndex (hc : s.cfg.BlockLegal) (i : Nat) :
    PhaseTicked s i (wrapIndex s.cfg.n i + 1)
      (trunc16 (deadTime s.cfg (s.sample (wrapIndex s.cfg.n i))).1)
      (trunc16 (deadTime s.cfg (s.sample (wrapIndex s.cfg.n i))).2) :=
  ⟨rfl, thresholdsOf_deadTime_sample hc (wrapIndex s.cfg.n i)⟩

end

/-- Settles O15: the event is the tick, which treats the three phases alike. -/
theorem overflowAtTheTargetTicks : Obligations.OverflowAtTheTargetTicks := by
  intro s hlegal hrun hcnt h0 h1 h2
  have hn : 0 < s.cfg.n := by
    obtain ⟨⟨hn, -⟩, -⟩ := hlegal
    omega
  exact ⟨_, exec_ovf_of_tick hn hrun hcnt h0 h1 h2, rfl, phaseTicked_wrapIndex hlegal s.idx.ph0,
    phaseTicked_wrapIndex hlegal s.idx.ph1, phaseTicked_wrapIndex hlegal s.idx.ph2⟩

end Sys2Proof.Machine
end

section
/-! PROOFS. The commands of the drive state machine (45_drive_state_machine.md R161 to R165): each
command's equation at the drive state it is meant for, where it performs `Stop()`, starts the cycle
or reverses, and at the others, where it only clears `RDATA`. -/

namespace Sys2Proof.Machine

/-! ### The status outputs and the direction (10_state.md R32, R24) -/

section
variable {s : State}

/-- The status outputs of a running block. -/
theorem statusOutputs_of_running (h : s.drive = .running) :
    s.tmrRun = true ∧ s.irqEn = true ∧ s.outOff = false := by
  simp [State.tmrRun, State.irqEn, State.outOff, h]

/-- The status outputs of a block that does not run, in Uninitialized as in Disabled. -/
theorem statusOutputs_of_not_running (h : s.drive ≠ .running) :
    s.tmrRun = false ∧ s.irqEn = false ∧ s.outOff = true := by
  simp [State.tmrRun, State.irqEn, State.outOff, h]

/-- The toggle of `DIR`, as a choice between its two values. -/
theorem Dir.flip_eq_ite (d : Dir) : d.flip = if d = .forward then .reverse else .forward := by
  cases d <;> rfl

/-! ### Each command by drive state -/

theorem exec_cmdInit_of_uninitialized (h : s.drive = .uninitialized) :
    exec .cmdInit s = .next { stop s with rdata := 0x00 } := by
  rw [exec_cmdInit, if_pos h]

theorem exec_cmdInit_of_not_uninitialized (h : s.drive ≠ .uninitialized) :
    exec .cmdInit s = .next { s with rdata := 0x00 } := by
  rw [exec_cmdInit, if_neg h]

theorem exec_cmdEnable_of_disabled (h : s.drive = .disabled) :
    exec .cmdEnable s = .next { s with
      drive := .running, cnt := 0x00, idx := initIdx s.cfg.n s.dir, rdata := 0x00 } := by
  rw [exec_cmdEnable, if_pos h]

theorem exec_cmdEnable_of_not_disabled (h : s.drive ≠ .disabled) :
    exec .cmdEnable s = .next { s with rdata := 0x00 } := by
  rw [exec_cmdEnable, if_neg h]

theorem exec_cmdDisable_of_running (h : s.drive = .running) :
    exec .cmdDisable s = .next { stop s with rdata := 0x00 } := by
  rw [exec_cmdDisable, if_pos h]

theorem exec_cmdDisable_of_not_running (h : s.drive ≠ .running) :
    exec .cmdDisable s = .next { s with rdata := 0x00 } := by
  rw [exec_cmdDisable, if_neg h]

theorem exec_cmdReverse_of_uninitialized (h : s.drive = .uninitialized) :
    exec .cmdReverse s = .next { s with rdata := 0x00 } := by
  rw [exec_cmdReverse, if_pos h]

/-- Disabled is left as it is: line 1 of `CMD.REVERSE` does nothing there. -/
theorem exec_cmdReverse_of_disabled (h : s.drive = .disabled) :
    exec .cmdReverse s = .next { swapDirection s with rdata := 0x00 } := by
  rw [exec_cmdReverse, if_neg (by simp [h]), if_neg (by simp [h])]

/-- The swap comes after `Stop()`, so it exchanges the initial indices. -/
theorem exec_cmdReverse_of_running (h : s.drive = .running) :
    exec .cmdReverse s = .next { swapDirection (stop s) with rdata := 0x00 } := by
  rw [exec_cmdReverse, if_neg (by simp [h]), if_pos h]

end

/-! ### The words of writes to `CTRL` (45_drive_state_machine.md R160) -/

/-- The word of a write of `d` to `CTRL`, whose address field is 0. -/
theorem ctrlWord_eq_writeWord (d : Byte) : 0x30000 ||| d.setWidth 20 = writeWord 0x00 d := rfl

/-- A reserved code at `CTRL` is the reserved write. -/
theorem decodeOps_ctrlWord_reserved (n : Nat) {d : Byte} (h : d = 0x00 ∨ 0x05 ≤ d.toNat) :
    decodeOps n (0x30000 ||| d.setWidth 20) = [.onop, .hRsvdw 0x00 d] := by
  have hreserved : decodeWrite n 0x00 d = .hRsvdw 0x00 d :=
    decodeWrite_eq_hRsvdw_iff.mpr (.inl ⟨rfl, h.imp_left fun hd => by rw [hd]; rfl⟩)
  rw [ctrlWord_eq_writeWord, decodeOps_writeWord, hreserved]

/-! ### The statements -/

/-- Settles O21: neither Uninitialized nor Disabled is Running, so the status outputs agree. -/
theorem initTakesUninitializedToDisabled : Obligations.InitTakesUninitializedToDisabled := by
  intro s
  refine ⟨decodeOps_writeWord s.cfg.n 0x00 0x01, fun huninit => ?_,
    exec_cmdInit_of_not_uninitialized⟩
  obtain ⟨htmr, hirq, hoff⟩ := statusOutputs_of_not_running (s := s) (by simp [huninit])
  rw [htmr, hirq, hoff]
  exact ⟨_, exec_cmdInit_of_uninitialized huninit, rfl, statusOutputs_of_not_running nofun⟩

/-- Settles O22: the state it leaves is Running, which sets the status outputs. -/
theorem enableTakesDisabledToRunning : Obligations.EnableTakesDisabledToRunning := fun s =>
  ⟨decodeOps_writeWord s.cfg.n 0x00 0x02,
    fun hdis => ⟨_, exec_cmdEnable_of_disabled hdis, rfl, statusOutputs_of_running rfl⟩,
    exec_cmdEnable_of_not_disabled⟩

/-- Settles O23: in Running the command is `Stop()`. -/
theorem disableTakesRunningToDisabled : Obligations.DisableTakesRunningToDisabled := fun s =>
  ⟨decodeOps_writeWord s.cfg.n 0x00 0x03,
    fun hrun => ⟨_, exec_cmdDisable_of_running hrun, rfl, statusOutputs_of_not_running nofun⟩,
    exec_cmdDisable_of_not_running⟩

/-- Settles O24: one equation for each drive state. -/
theorem reverseSwapsAndToggles : Obligations.ReverseSwapsAndToggles := by
  intro s
  rw [← Dir.flip_eq_ite]
  exact ⟨decodeOps_writeWord s.cfg.n 0x00 0x04, exec_cmdReverse_of_uninitialized,
    exec_cmdReverse_of_disabled,
    fun hrun => ⟨_, exec_cmdReverse_of_running hrun, rfl, statusOutputs_of_not_running nofun⟩⟩

/-- Settles O25: the word holds `ONOP` and the reserved write, which clear the output record. -/
theorem reservedCommandCodesDoNothing : Obligations.ReservedCommandCodesDoNothing := by
  intro s d hd
  have hops := decodeOps_ctrlWord_reserved s.cfg.n hd
  refine ⟨hops, ?_⟩
  rw [runWord, hops, runOps_cons, exec_onop, andThen_next, runOps_cons, exec_hRsvdw, andThen_next,
    runOps_nil]

end Sys2Proof.Machine
end

section
/-! PROOFS. Decoding and encoding (30_encoding.md R73, R74, R80): the canonical word of a well-formed
operation decodes to it, and an event beside it changes the event slot only. -/

namespace Sys2Proof.Machine

/-! ### Well-formed catch-all accesses are those the decoder reserves -/

/-- A well-formed reserved read decodes as one. -/
theorem decodeRead_of_reservedRead {n : Nat} {a : Byte} (h : reservedRead n a = true) :
    decodeRead n a = .hRsvdr a := by
  simp only [reservedRead, Bool.or_eq_true, Bool.and_eq_true, beq_iff_eq, decide_eq_true_eq] at h
  rw [decodeRead_eq_hRsvdr_iff]
  omega

/-- The write codes of no command. -/
theorem isCommand_eq_false_iff : ∀ d : Byte, isCommand d = false ↔ d.toNat = 0x00 ∨ 0x05 ≤ d.toNat := by
  decide

/-- A well-formed reserved write decodes as one. -/
theorem decodeWrite_of_reservedWrite {n : Nat} {a d : Byte} (h : reservedWrite n a d = true) :
    decodeWrite n a d = .hRsvdw a d := by
  have hcode := isCommand_eq_false_iff d
  rw [decodeWrite_eq_hRsvdw_iff, ← hcode]
  simp only [reservedWrite, Bool.and_eq_true, Bool.not_eq_true', Bool.and_eq_false_iff,
    beq_eq_false_iff_ne, decide_eq_false_iff_not] at h
  obtain ⟨⟨hdivtgt, htable⟩, hctrl⟩ := h
  by_cases ha : a.toNat = 0x00
  · exact .inl ⟨ha, hctrl.resolve_left (absurd ha)⟩
  · exact .inr ⟨ha, hdivtgt, by omega⟩

/-! ### The canonical word of a host operation -/

/-- The canonical word of a well-formed host operation holds it beside an empty event slot. -/
theorem decodeOps_encode_host {n : Nat} {h : Instr} (hslot : h.slot = .host)
    (hwf : h.wellFormed n = true) : decodeOps n (encode h) = [.onop, h] := by
  have hread := decodeOps_readWord n
  have hwrite := decodeOps_writeWord n
  cases h with
  | rst | ovf | onop => exact absurd hslot nofun
  | hnop => exact decodeOps_of_empty (by decide) (by decide) (by decide)
  | cmdInit => exact hwrite 0x00 0x01
  | cmdEnable => exact hwrite 0x00 0x02
  | cmdDisable => exact hwrite 0x00 0x03
  | cmdReverse => exact hwrite 0x00 0x04
  | wrDivtgt d => exact hwrite 0x02 d
  | wrScaledl i d => exact (decodeOps_wrScaled d (of_decide_eq_true hwf)).1
  | wrScaledh i d => exact (decodeOps_wrScaled d (of_decide_eq_true hwf)).2
  | rdStatus => exact hread 0x01
  | rdDivtgt => exact hread 0x02
  | rdCnt => exact hread 0x03
  | rdIdx0 => exact hread 0x04
  | rdIdx120 => exact hread 0x05
  | rdIdx240 => exact hread 0x06
  | rdRisel p => exact (WideRead.decodeOps_low_high (r := .rise p) hwf).1
  | rdRiseh p => exact (WideRead.decodeOps_low_high (r := .rise p) hwf).2
  | rdFalll p => exact (WideRead.decodeOps_low_high (r := .fall p) hwf).1
  | rdFallh p => exact (WideRead.decodeOps_low_high (r := .fall p) hwf).2
  | rdScaledl i => exact (WideRead.decodeOps_low_high (r := .scaled i) hwf).1
  | rdScaledh i => exact (WideRead.decodeOps_low_high (r := .scaled i) hwf).2
  | rdRefl i => exact (WideRead.decodeOps_low_high (r := .ref i) hwf).1
  | rdRefh i => exact (WideRead.decodeOps_low_high (r := .ref i) hwf).2
  | hRsvdw a d => exact (hwrite a d).trans (by rw [decodeWrite_of_reservedWrite hwf])
  | hRsvdr a => exact (hread a).trans (by rw [decodeRead_of_reservedRead hwf])

/-! ### An event beside a host operation -/

/-- The decoder's host slot reads the bits of `HV`, `WE`, `ADDR` and `DATA` only. -/
theorem decodeHost_congr {n : Nat} {v w : Word} (hhv : wordHv v = wordHv w)
    (hwe : wordWe v = wordWe w) (haddr : wordAddr v = wordAddr w) (hdata : wordData v = wordData w) :
    decodeHost n v = decodeHost n w := by
  rw [decodeHost, decodeHost, hhv, hwe, haddr, hdata]

/-- Setting `OVF` in a word without it changes the event slot only. -/
theorem decodeOps_ovf_or {n : Nat} {w : Word} {h : Instr} (hw : decodeOps n w = [.onop, h]) :
    decodeOps n (encode .ovf ||| w) = [.ovf, h] := by
  have hrst : wordRst w = false := by
    by_contra hc
    simp [decodeOps_of_rst (Bool.eq_true_of_not_eq_false hc)] at hw
  rw [decodeOps_of_not_rst hrst, List.cons.injEq, List.cons.injEq] at hw
  obtain ⟨-, rfl, -⟩ := hw
  have hfields : wordRst (encode .ovf) = false ∧ wordOvf (encode .ovf) = true ∧
      wordHv (encode .ovf) = false ∧ wordWe (encode .ovf) = false ∧
      wordAddr (encode .ovf) = 0 ∧ wordData (encode .ovf) = 0 := by decide
  obtain ⟨hr, ho, hh, hwe, ha, hd⟩ := hfields
  rw [decodeOps_of_not_rst (by rw [wordRst_or, hr, hrst]; rfl), decodeEvent, wordOvf_or, ho,
    Bool.true_or, if_pos rfl]
  have hhost : decodeHost n (encode .ovf ||| w) = decodeHost n w :=
    decodeHost_congr (by rw [wordHv_or, hh, Bool.false_or]) (by rw [wordWe_or, hwe, Bool.false_or])
      (by rw [wordAddr_or, ha]; exact BitVec.zero_or) (by rw [wordData_or, hd]; exact BitVec.zero_or)
  rw [hhost]

/-- The word `e || h` holds `e` and `h`. -/
theorem decodeOps_encodePair {n : Nat} {e h : Instr} (he : e.slot = .event) (hh : h.slot = .host)
    (hwf : h.wellFormed n = true) : decodeOps n (encodePair e h) = [e, h] := by
  have hhost := decodeOps_encode_host hh hwf
  cases e <;> simp only [Instr.slot, reduceCtorEq] at he
  case onop => exact (congrArg (decodeOps n) BitVec.zero_or).trans hhost
  case ovf => exact decodeOps_ovf_or hhost

/-- Settles O3: the word of the host operation decodes to it, and the event beside it changes the
event slot only. -/
theorem encodedOperationsDecodeBack : Obligations.EncodedOperationsDecodeBack :=
  fun _ _ _ he hh hwf => ⟨decodeOps_encodePair he hh hwf, decodeOps_of_rst (by decide)⟩

/-- Settles O8: the word decodes to the event and then the host operation, which run in order. -/
theorem eventRunsBeforeTheHostAccess : Obligations.EventRunsBeforeTheHostAccess := by
  intro s e h he hh hwf
  have hrun : runWord (encodePair e h) s = andThen (exec e s) (exec h) := by
    rw [runWord, decodeOps_encodePair he hh hwf]
    exact congrArg (andThen (exec e s)) (funext fun m => andThen_runOps_nil (exec h m))
  refine ⟨fun m hm => ?_, fun x hx => ?_⟩
  · rw [hrun, hm, andThen_next]
  · rw [hrun, hx, andThen_fault]

end Sys2Proof.Machine
end

section
/-! PROOFS. Words and rows (30_encoding.md R76, R77, R82): a word is its six fields, so what a row fixes
and what a slot ignores is read off the fields. -/

namespace Sys2Proof.Machine

/-! ### A word is its fields (30_encoding.md R71) -/

/-- Two words with the same fields are the same word. -/
theorem word_ext {v w : Word} (hrst : wordRst v = wordRst w) (hovf : wordOvf v = wordOvf w)
    (hhv : wordHv v = wordHv w) (hwe : wordWe v = wordWe w) (haddr : wordAddr v = wordAddr w)
    (hdata : wordData v = wordData w) : v = w := by
  have hbyte : ∀ (start k : Nat), k < 8 → v.extractLsb' start 8 = w.extractLsb' start 8 →
      v.getLsbD (start + k) = w.getLsbD (start + k) := by
    intro start k hk h
    simpa [BitVec.getLsbD_extractLsb', hk] using congrArg (BitVec.getLsbD · k) h
  refine BitVec.eq_of_getLsbD_eq fun i hi => ?_
  by_cases hd : i < 8
  · simpa using hbyte 0 i hd hdata
  by_cases ha : i < 16
  · simpa [show 8 + (i - 8) = i by omega] using hbyte 8 (i - 8) (by omega) haddr
  obtain rfl | rfl | rfl | rfl : i = 16 ∨ i = 17 ∨ i = 18 ∨ i = 19 := by omega
  · exact hwe
  · exact hhv
  · exact hovf
  · exact hrst

/-! ### Fields of a masked word -/

@[simp] theorem wordRst_and (v w : Word) : wordRst (v &&& w) = (wordRst v && wordRst w) := by
  simp [wordRst]
@[simp] theorem wordOvf_and (v w : Word) : wordOvf (v &&& w) = (wordOvf v && wordOvf w) := by
  simp [wordOvf]
@[simp] theorem wordHv_and (v w : Word) : wordHv (v &&& w) = (wordHv v && wordHv w) := by
  simp [wordHv]
@[simp] theorem wordWe_and (v w : Word) : wordWe (v &&& w) = (wordWe v && wordWe w) := by
  simp [wordWe]
@[simp] theorem wordAddr_and (v w : Word) : wordAddr (v &&& w) = wordAddr v &&& wordAddr w := by
  simp only [wordAddr, BitVec.extractLsb'_and]
@[simp] theorem wordData_and (v w : Word) : wordData (v &&& w) = wordData v &&& wordData w := by
  simp only [wordData, BitVec.extractLsb'_and]

/-- A mask that keeps a whole byte keeps its value. -/
theorem byte_and_ones (b : Byte) : b &&& 0xFF = b := BitVec.and_allOnes

/-- The bits of a host read, `OVF` and the ignored `DATA` apart. -/
theorem and_readMask {w : Word} (hrst : wordRst w = false) (hhv : wordHv w = true)
    (hwe : wordWe w = false) : w &&& 0xBFF00 = readWord (wordAddr w) := by
  obtain ⟨hr, ho, hh, hw, ha⟩ := readWord_fields (wordAddr w)
  have hd : ∀ a : Byte, wordData (readWord a) = 0 := by decide
  apply word_ext
  · rw [wordRst_and, hrst, hr]; rfl
  · rw [wordOvf_and, ho]; exact Bool.and_false _
  · rw [wordHv_and, hhv, hh]; rfl
  · rw [wordWe_and, hwe, hw]; rfl
  · rw [wordAddr_and, ha]; exact byte_and_ones _
  · rw [wordData_and, hd]; exact BitVec.and_zero

/-- The bits of a host write, `OVF` apart. -/
theorem and_writeMask {w : Word} (hrst : wordRst w = false) (hhv : wordHv w = true)
    (hwe : wordWe w = true) : w &&& 0xBFFFF = writeWord (wordAddr w) (wordData w) := by
  obtain ⟨hr, ho, hh, hw, ha, hd⟩ := writeWord_fields (wordAddr w) (wordData w)
  apply word_ext
  · rw [wordRst_and, hrst, hr]; rfl
  · rw [wordOvf_and, ho]; exact Bool.and_false _
  · rw [wordHv_and, hhv, hh]; rfl
  · rw [wordWe_and, hwe, hw]; rfl
  · rw [wordAddr_and, ha]; exact byte_and_ones _
  · rw [wordData_and, hd]; exact byte_and_ones _

/-- The bits of an empty host slot. -/
theorem and_emptyMask {w : Word} (hrst : wordRst w = false) (hhv : wordHv w = false) :
    w &&& 0xA0000 = encode .hnop := by
  apply word_ext
  · rw [wordRst_and, hrst]; rfl
  · rw [wordOvf_and]; exact Bool.and_false _
  · rw [wordHv_and, hhv]; rfl
  · rw [wordWe_and]; exact Bool.and_false _
  · rw [wordAddr_and]; exact BitVec.and_zero
  · rw [wordData_and]; exact BitVec.and_zero

/-- The bits of an event slot. -/
theorem and_eventMask {w : Word} (hrst : wordRst w = false) :
    w &&& 0xC0000 = encode (decodeEvent w) := by
  have h0 : wordRst 0xC0000 = true ∧ wordHv 0xC0000 = false ∧ wordWe 0xC0000 = false ∧
      wordAddr 0xC0000 = 0 ∧ wordData 0xC0000 = 0 ∧ wordOvf 0xC0000 = true := by decide
  obtain ⟨-, hh, hw, ha, hd, ho⟩ := h0
  have he : ∀ b : Bool, wordRst (encode (if b then .ovf else .onop)) = false ∧
      wordOvf (encode (if b then .ovf else .onop)) = b ∧
      wordHv (encode (if b then .ovf else .onop)) = false ∧
      wordWe (encode (if b then .ovf else .onop)) = false ∧
      wordAddr (encode (if b then .ovf else .onop)) = 0 ∧
      wordData (encode (if b then .ovf else .onop)) = 0 := by decide
  obtain ⟨hr', ho', hh', hw', ha', hd'⟩ := he (wordOvf w)
  rw [decodeEvent]
  apply word_ext
  · rw [wordRst_and, hrst, hr']; rfl
  · rw [wordOvf_and, ho, ho', Bool.and_true]
  · rw [wordHv_and, hh, hh', Bool.and_false]
  · rw [wordWe_and, hw, hw', Bool.and_false]
  · rw [wordAddr_and, ha, ha']; exact BitVec.and_zero
  · rw [wordData_and, hd, hd']; exact BitVec.and_zero

/-! ### The canonical word of a decoded host access -/

/-- The canonical word of what a read address decodes to is the read of that address. -/
theorem encode_decodeRead (n : Nat) (a : Byte) : encode (decodeRead n a) = readWord a := by
  have htable : ∀ a : Byte,
      (addrWindow a = 0b01 → addrHigh a = true → encode (.rdScaledh (addrIndex a)) = readWord a) ∧
      (addrWindow a = 0b01 → addrHigh a = false → encode (.rdScaledl (addrIndex a)) = readWord a) ∧
      (addrWindow a = 0b10 → addrHigh a = true → encode (.rdRefh (addrIndex a)) = readWord a) ∧
      (addrWindow a = 0b10 → addrHigh a = false → encode (.rdRefl (addrIndex a)) = readWord a) := by
    decide
  obtain ⟨hsh, hsl, hrh, hrl⟩ := htable a
  by_cases hthr : addrGroup a = 0b0001 ∧ (addrPhase a).toNat < 3
  · have hmem := threshold_addr_cases a hthr
    simp only [List.mem_cons, List.not_mem_nil, or_false] at hmem
    rcases hmem with rfl | rfl | rfl | rfl | rfl | rfl | rfl | rfl | rfl | rfl | rfl | rfl <;> rfl
  rw [decodeRead, if_neg hthr]
  split_ifs with h1 h2 h3 h4 h5 h6 hs hh hr hh
  · rw [h1]; rfl
  · rw [h2]; rfl
  · rw [h3]; rfl
  · rw [h4]; rfl
  · rw [h5]; rfl
  · rw [h6]; rfl
  · exact hsh hs.1 hh
  · exact hsl hs.1 (Bool.eq_false_of_not_eq_true hh)
  · exact hrh hr.1 hh
  · exact hrl hr.1 (Bool.eq_false_of_not_eq_true hh)
  · rfl

/-- The canonical word of what a write decodes to is that write. -/
theorem encode_decodeWrite (n : Nat) (a d : Byte) : encode (decodeWrite n a d) = writeWord a d := by
  have htable : ∀ a : Byte,
      (addrWindow a = 0b01 → addrHigh a = true →
        0x34100 ||| atIndex (addrIndex a) = 0x30000 ||| atAddr a) ∧
      (addrWindow a = 0b01 → addrHigh a = false →
        0x34000 ||| atIndex (addrIndex a) = 0x30000 ||| atAddr a) := by decide
  obtain ⟨hhigh, hlow⟩ := htable a
  rw [decodeWrite]
  split_ifs with h0 h1 h2 h3 h4 h5 hs hh
  · rw [h0, h1]; rfl
  · rw [h0, h2]; rfl
  · rw [h0, h3]; rfl
  · rw [h0, h4]; rfl
  · rfl
  · rw [h5]; rfl
  · exact congrArg (· ||| atData d) (hhigh hs.1 hh)
  · exact congrArg (· ||| atData d) (hlow hs.1 (Bool.eq_false_of_not_eq_true hh))
  · rfl

/-- The bits of a word that its host slot reads; `DATA` of a read and all of an empty slot but `HV` are
ignored (30_encoding.md R77 item 1). -/
def hostMask (w : Word) : Word :=
  if wordHv w then if wordWe w then 0xBFFFF else 0xBFF00 else 0xA0000

/-- The canonical word of a word's host operation: the bits of the word that its host slot reads. -/
theorem encode_decodeHost {w : Word} (n : Nat) (hrst : wordRst w = false) :
    encode (decodeHost n w) = w &&& hostMask w := by
  rw [decodeHost, hostMask]
  split_ifs with hhv hwe
  · rw [encode_decodeWrite, and_writeMask hrst hhv hwe]
  · rw [encode_decodeRead, and_readMask hrst hhv (Bool.eq_false_of_not_eq_true hwe)]
  · exact (and_emptyMask hrst (Bool.eq_false_of_not_eq_true hhv)).symm

/-- The canonical word of a word's operations: the bits that one of its slots reads. -/
theorem encodePair_decode {w : Word} (n : Nat) (hrst : wordRst w = false) :
    encodePair (decodeEvent w) (decodeHost n w) = w &&& (0xC0000 ||| hostMask w) := by
  rw [encodePair, ← and_eventMask hrst, encode_decodeHost n hrst]
  ext i hi
  simp [Bool.and_or_distrib_left]

/-- Settles O4: with every ignored bit 0, the bits that a slot reads are the whole word. -/
theorem canonicalWordsEncodeBack : Obligations.CanonicalWordsEncodeBack := by
  intro n w hrst hempty hread
  refine ⟨_, _, decodeOps_of_not_rst hrst, ?_⟩
  have hsplit : ∀ m ignored : Word, m ||| ignored = 0xFFFFF → w &&& ignored = 0 → w &&& m = w := by
    intro m ignored hall hignored
    calc w &&& m = (w &&& m) ||| (w &&& ignored) := by rw [hignored]; exact BitVec.or_zero.symm
      _ = w &&& (m ||| ignored) := by ext i hi; simp [Bool.and_or_distrib_left]
      _ = w := by rw [hall]; exact BitVec.and_allOnes
  rw [encodePair_decode n hrst, hostMask]
  split_ifs with hhv hwe
  · exact hsplit _ 0 (by decide) BitVec.and_zero
  · exact hsplit _ 0x000FF (by decide) (hread hhv (Bool.eq_false_of_not_eq_true hwe))
  · exact hsplit _ 0x1FFFF (by decide) (hempty (Bool.eq_false_of_not_eq_true hhv))

/-! ### The rows of decoded operations (30_encoding.md R76) -/

/-- The canonical word of every operation has the fixed bits of its row. -/
theorem matchesRow_encode (i : Instr) : i.matchesRow (encode i) = true := by
  cases i with
  | rst => exact Laws.RowBits.rst
  | ovf => exact Laws.RowBits.ovf
  | onop => exact Laws.RowBits.onop
  | hnop => exact Laws.RowBits.hnop
  | cmdInit => exact Laws.RowBits.cmdInit
  | cmdEnable => exact Laws.RowBits.cmdEnable
  | cmdDisable => exact Laws.RowBits.cmdDisable
  | cmdReverse => exact Laws.RowBits.cmdReverse
  | wrDivtgt d => exact Laws.RowBits.wrDivtgt d
  | wrScaledl i d => exact Laws.RowBits.wrScaledl i d
  | wrScaledh i d => exact Laws.RowBits.wrScaledh i d
  | rdStatus => exact Laws.RowBits.rdStatus
  | rdDivtgt => exact Laws.RowBits.rdDivtgt
  | rdCnt => exact Laws.RowBits.rdCnt
  | rdIdx0 => exact Laws.RowBits.rdIdx0
  | rdIdx120 => exact Laws.RowBits.rdIdx120
  | rdIdx240 => exact Laws.RowBits.rdIdx240
  | rdRisel p => exact Laws.RowBits.rdRisel p
  | rdRiseh p => exact Laws.RowBits.rdRiseh p
  | rdFalll p => exact Laws.RowBits.rdFalll p
  | rdFallh p => exact Laws.RowBits.rdFallh p
  | rdScaledl i => exact Laws.RowBits.rdScaledl i
  | rdScaledh i => exact Laws.RowBits.rdScaledh i
  | rdRefl i => exact Laws.RowBits.rdRefl i
  | rdRefh i => exact Laws.RowBits.rdRefh i
  | hRsvdw a d => exact Laws.RowBits.hRsvdw a d
  | hRsvdr a => exact Laws.RowBits.hRsvdr a

/-- A word that agrees with the canonical word of `i` on bits that include the row's mask has the fixed
bits of the row. -/
theorem matchesRow_of_and_eq {i : Instr} {w m : Word} (hw : w &&& m = encode i)
    (hm : m &&& i.rowMask = i.rowMask) : i.matchesRow w = true := by
  have hrow : encode i &&& i.rowMask = i.rowMatch := eq_of_beq (matchesRow_encode i)
  rw [← hw, BitVec.and_assoc, hm] at hrow
  exact beq_of_eq hrow

/-- What a read address decodes to: a host operation whose row does not fix `OVF` and `DATA`. -/
theorem decodeRead_row (n : Nat) (a : Byte) :
    (decodeRead n a).slot = .host ∧ 0xBFF00 &&& (decodeRead n a).rowMask = (decodeRead n a).rowMask := by
  unfold decodeRead
  split_ifs
  iterate 6 exact ⟨rfl, by dsimp only [Instr.rowMask]; decide⟩
  · cases addrFall a <;> cases addrHigh a <;> exact ⟨rfl, by dsimp only [Instr.rowMask]; decide⟩
  all_goals exact ⟨rfl, by dsimp only [Instr.rowMask]; decide⟩

/-- What a write decodes to: a host operation whose row does not fix `OVF`. -/
theorem decodeWrite_row (n : Nat) (a d : Byte) :
    (decodeWrite n a d).slot = .host ∧
      0xBFFFF &&& (decodeWrite n a d).rowMask = (decodeWrite n a d).rowMask := by
  unfold decodeWrite
  split_ifs <;> exact ⟨rfl, by dsimp only [Instr.rowMask]; decide⟩

/-- The host operation of a word: the row's mask is among the bits that the host slot reads. -/
theorem decodeHost_row (n : Nat) (w : Word) :
    (decodeHost n w).slot = .host ∧
      hostMask w &&& (decodeHost n w).rowMask = (decodeHost n w).rowMask := by
  unfold decodeHost hostMask
  split_ifs
  · exact decodeWrite_row n _ _
  · exact decodeRead_row n _
  · exact ⟨rfl, by dsimp only [Instr.rowMask]; decide⟩

/-- The event operation of a word is of the event slot, and its row fixes `RST` and `OVF`. -/
theorem decodeEvent_row (n : Nat) (w : Word) :
    (decodeEvent w).slot = .event ∧ (decodeEvent w).wellFormed n = true ∧
      0xC0000 &&& (decodeEvent w).rowMask = (decodeEvent w).rowMask := by
  unfold decodeEvent
  split_ifs <;> exact ⟨rfl, rfl, by dsimp only [Instr.rowMask]; decide⟩

end Sys2Proof.Machine
end

section
/-! PROOFS. The decoder against the table of rows (30_encoding.md R76, R77, R82): what every word decodes
to, that a word has one row a slot, and that ignored bits are ignored. -/

namespace Sys2Proof.Machine

/-! ### Decoded operations are well-formed (30_encoding.md R82) -/

/-- With at most 32 entries a read that decodes as reserved has an address of no other row. -/
theorem reservedRead_of_decodeRead {n : Nat} {a : Byte} (hn : n ≤ 32)
    (h : decodeRead n a = .hRsvdr a) : reservedRead n a = true := by
  rw [decodeRead_eq_hRsvdr_iff] at h
  simp only [reservedRead, Bool.or_eq_true, Bool.and_eq_true, beq_iff_eq, decide_eq_true_eq]
  omega

/-- With at most 32 entries a write that decodes as reserved is a write of no other row. -/
theorem reservedWrite_of_decodeWrite {n : Nat} {a d : Byte} (hn : n ≤ 32)
    (h : decodeWrite n a d = .hRsvdw a d) : reservedWrite n a d = true := by
  rw [decodeWrite_eq_hRsvdw_iff, ← isCommand_eq_false_iff] at h
  simp only [reservedWrite, Bool.and_eq_true, Bool.not_eq_true', Bool.and_eq_false_iff,
    beq_eq_false_iff_ne, decide_eq_false_iff_not]
  rcases h with ⟨ha, hd⟩ | ⟨ha, h2, htable⟩
  · exact ⟨⟨by omega, by omega⟩, .inr hd⟩
  · exact ⟨⟨h2, by omega⟩, .inl ha⟩

theorem wellFormed_decodeRead {n : Nat} (hn : n ≤ 32) (a : Byte) :
    (decodeRead n a).wellFormed n = true := by
  have hres := reservedRead_of_decodeRead (a := a) hn
  unfold decodeRead at hres ⊢
  split_ifs with h1 h2 h3 h4 h5 h6 hthr hs hh hr hh
  iterate 6 rfl
  · cases addrFall a <;> cases addrHigh a <;> exact decide_eq_true hthr.2
  · exact decide_eq_true hs.2
  · exact decide_eq_true hs.2
  · exact decide_eq_true hr.2
  · exact decide_eq_true hr.2
  · rw [if_neg h1, if_neg h2, if_neg h3, if_neg h4, if_neg h5, if_neg h6, if_neg hthr, if_neg hs,
      if_neg hr] at hres
    exact hres rfl

theorem wellFormed_decodeWrite {n : Nat} (hn : n ≤ 32) (a d : Byte) :
    (decodeWrite n a d).wellFormed n = true := by
  have hres := reservedWrite_of_decodeWrite (a := a) (d := d) hn
  unfold decodeWrite at hres ⊢
  split_ifs with h0 h1 h2 h3 h4 h5 hs hh
  iterate 4 rfl
  · rw [if_pos h0, if_neg h1, if_neg h2, if_neg h3, if_neg h4] at hres
    exact hres rfl
  · rfl
  · exact decide_eq_true hs.2
  · exact decide_eq_true hs.2
  · rw [if_neg h0, if_neg h5, if_neg hs] at hres
    exact hres rfl

theorem wellFormed_decodeHost {n : Nat} (hn : n ≤ 32) (w : Word) :
    (decodeHost n w).wellFormed n = true := by
  unfold decodeHost
  split_ifs
  · exact wellFormed_decodeWrite hn _ _
  · exact wellFormed_decodeRead hn _
  · rfl

/-- The host operation is `HNOP` exactly without `HV`: the canonical word of an access has `HV`. -/
theorem decodeHost_eq_hnop_iff {n : Nat} {w : Word} : decodeHost n w = .hnop ↔ wordHv w = false := by
  refine ⟨fun h => ?_, decodeHost_of_not_hv⟩
  by_contra hhv
  have henc : wordHv (encode (decodeHost n w)) = false := by rw [h]; decide
  rw [decodeHost, if_pos (Bool.eq_true_of_not_eq_false hhv)] at henc
  split_ifs at henc
  · obtain ⟨-, -, hset, -⟩ := writeWord_fields (wordAddr w) (wordData w)
    rw [encode_decodeWrite, hset] at henc
    exact Bool.noConfusion henc
  · obtain ⟨-, -, hset, -⟩ := readWord_fields (wordAddr w)
    rw [encode_decodeRead, hset] at henc
    exact Bool.noConfusion henc

/-- The event operation is `OVF` exactly with bit 18. -/
theorem decodeEvent_eq_ovf_iff {w : Word} : decodeEvent w = .ovf ↔ wordOvf w = true := by
  rw [decodeEvent]
  split_ifs with hovf
  · exact iff_of_true rfl hovf
  · exact iff_of_false nofun hovf

/-- The bit of `RST`. -/
theorem and_rstMask {w : Word} (hrst : wordRst w = true) : w &&& 0x80000 = encode .rst := by
  apply word_ext
  · rw [wordRst_and, hrst]; rfl
  · rw [wordOvf_and]; exact Bool.and_false _
  · rw [wordHv_and]; exact Bool.and_false _
  · rw [wordWe_and]; exact Bool.and_false _
  · rw [wordAddr_and]; exact BitVec.and_zero
  · rw [wordData_and]; exact BitVec.and_zero

/-- Settles O1: each slot of the word agrees with its operation's canonical word on the row's mask. -/
theorem everyWordDecodesToItsRows : Obligations.EveryWordDecodesToItsRows := by
  intro n w hn
  constructor
  · intro hrst
    exact ⟨decodeOps_of_rst hrst, matchesRow_of_and_eq (and_rstMask hrst) (by decide)⟩
  · intro hrst
    obtain ⟨heslot, hewf, hemask⟩ := decodeEvent_row n w
    obtain ⟨hhslot, hhmask⟩ := decodeHost_row n w
    exact ⟨decodeEvent w, decodeHost n w, decodeOps_of_not_rst hrst, heslot, hhslot,
      decodeEvent_eq_ovf_iff.symm, decodeHost_eq_hnop_iff.symm, hewf, wellFormed_decodeHost hn w,
      matchesRow_of_and_eq (and_eventMask hrst) hemask,
      matchesRow_of_and_eq (encode_decodeHost n hrst).symm hhmask⟩

/-! ### Rows of one slot are disjoint (30_encoding.md R76) -/

/-- The rows of 30_encoding.md R76 but the two catch-alls: slot, mask and match. -/
def exactRows : List (Slot × Word × Word) :=
  [(.reset, 0x80000, 0x80000), (.event, 0xC0000, 0x40000), (.event, 0xC0000, 0x00000),
    (.host, 0xA0000, 0x00000), (.host, 0xBFFFF, 0x30001), (.host, 0xBFFFF, 0x30002),
    (.host, 0xBFFFF, 0x30003), (.host, 0xBFFFF, 0x30004), (.host, 0xBFF00, 0x30200),
    (.host, 0xBC100, 0x34000), (.host, 0xBC100, 0x34100), (.host, 0xBFF00, 0x20100),
    (.host, 0xBFF00, 0x20200), (.host, 0xBFF00, 0x20300), (.host, 0xBFF00, 0x20400),
    (.host, 0xBFF00, 0x20500), (.host, 0xBFF00, 0x20600), (.host, 0xBF300, 0x21000),
    (.host, 0xBF300, 0x21100), (.host, 0xBF300, 0x21200), (.host, 0xBF300, 0x21300),
    (.host, 0xBC100, 0x24000), (.host, 0xBC100, 0x24100), (.host, 0xBC100, 0x28000),
    (.host, 0xBC100, 0x28100)]

/-- The row of an operation that is no catch-all is in the list. -/
theorem row_mem_exactRows {i : Instr} (hw : ∀ a d, i ≠ .hRsvdw a d) (hr : ∀ a, i ≠ .hRsvdr a) :
    (i.slot, i.rowMask, i.rowMatch) ∈ exactRows := by
  cases i
  case hRsvdw a d => exact absurd rfl (hw a d)
  case hRsvdr a => exact absurd rfl (hr a)
  all_goals simp [exactRows, Instr.slot, Instr.rowMask, Instr.rowMatch]

/-- Two rows of one slot whose matches agree where both masks fix a bit are one row. -/
theorem exactRows_disjoint : ∀ r ∈ exactRows, ∀ r' ∈ exactRows, r.1 = r'.1 →
    r.2.2 &&& r'.2.1 = r'.2.2 &&& r.2.1 → r.2 = r'.2 := by
  decide

/-- Settles O2: the matches of two rows that one word has agree where both masks fix a bit. -/
theorem rowsOfASlotAreDisjoint : Obligations.RowsOfASlotAreDisjoint := by
  intro n w i j hslot _ _ hi hj hw hr
  have hagree : i.rowMatch &&& j.rowMask = j.rowMatch &&& i.rowMask := by
    rw [← eq_of_beq hi, ← eq_of_beq hj, BitVec.and_assoc, BitVec.and_assoc,
      BitVec.and_comm i.rowMask]
  have hrow := exactRows_disjoint _
    (row_mem_exactRows (fun a d => (hw a d).1) (fun a => (hr a).1)) _
    (row_mem_exactRows (fun a d => (hw a d).2) (fun a => (hr a).2)) hslot hagree
  exact Prod.ext_iff.mp hrow

/-! ### Ignored bits (93_implementation_defined.md U7) -/

/-- The decoder reads `RST`, `OVF` and the host slot. -/
theorem decodeOps_congr {n : Nat} {v w : Word} (hrst : wordRst v = wordRst w)
    (hovf : wordOvf v = wordOvf w) (hhost : decodeHost n v = decodeHost n w) :
    decodeOps n v = decodeOps n w := by
  rw [decodeOps, decodeOps, decodeEvent, decodeEvent, hrst, hovf, hhost]

/-- Settles O5: the decoder reads none of the ignored bits. -/
theorem ignoredBitsHaveNoEffect : Obligations.IgnoredBitsHaveNoEffect := by
  intro s v w
  refine ⟨fun hv hw => ?_, fun hagree hv => ?_, fun hagree hv => ?_⟩
  · rw [runWord_of_rst s hv, runWord_of_rst s hw]
  · obtain ⟨mr, mo, mh⟩ : wordRst 0xE0000 = true ∧ wordOvf 0xE0000 = true ∧
        wordHv 0xE0000 = true := by decide
    have hrst : wordRst v = wordRst w := by
      simpa only [wordRst_and, mr, Bool.and_true] using congrArg wordRst hagree
    have hovf : wordOvf v = wordOvf w := by
      simpa only [wordOvf_and, mo, Bool.and_true] using congrArg wordOvf hagree
    have hhv : wordHv v = wordHv w := by
      simpa only [wordHv_and, mh, Bool.and_true] using congrArg wordHv hagree
    rw [runWord, runWord, decodeOps_congr hrst hovf]
    rw [decodeHost_of_not_hv hv, decodeHost_of_not_hv (hhv.symm.trans hv)]
  · obtain ⟨mr, mo, mh, mw, ma⟩ : wordRst 0xFFF00 = true ∧ wordOvf 0xFFF00 = true ∧
        wordHv 0xFFF00 = true ∧ wordWe 0xFFF00 = true ∧ wordAddr 0xFFF00 = 0xFF := by decide
    have hrst : wordRst v = wordRst w := by
      simpa only [wordRst_and, mr, Bool.and_true] using congrArg wordRst hagree
    have hovf : wordOvf v = wordOvf w := by
      simpa only [wordOvf_and, mo, Bool.and_true] using congrArg wordOvf hagree
    have hhv : wordHv v = wordHv w := by
      simpa only [wordHv_and, mh, Bool.and_true] using congrArg wordHv hagree
    have hwe : wordWe v = wordWe w := by
      simpa only [wordWe_and, mw, Bool.and_true] using congrArg wordWe hagree
    have haddr : wordAddr v = wordAddr w := by
      simpa only [wordAddr_and, ma, byte_and_ones] using congrArg wordAddr hagree
    have hread : wordWe v = false := hv
    rw [runWord, runWord, decodeOps_congr hrst hovf]
    rw [decodeHost, decodeHost, ← hwe, hread, hhv, haddr, if_neg Bool.false_ne_true,
      if_neg Bool.false_ne_true]

/-- Settles O6: the ten words, decoded. -/
theorem wordsOfTheSpecDecode : Obligations.WordsOfTheSpecDecode := by
  unfold Obligations.WordsOfTheSpecDecode
  decide

end Sys2Proof.Machine
end

section
/-! PROOFS. What an operation can do, once, as named cases, and what follows for every operation: where
one stops (44_phase_index_tracker.md R154), which elements it writes (10_state.md R22), and how the drive
state moves (45_drive_state_machine.md R167). -/

namespace Sys2Proof.Machine

/-! ### The effects of operations -/

/-- `Effect s i t`: `i` takes `s` to `t`, one case for each thing an operation can do. -/
inductive Effect (s : State) : Instr → State → Prop
  /-- `RST`. -/
  | reset : Effect s .rst (resetBlock s)
  /-- An empty event slot, or an event that is lost outside Running. -/
  | noEvent {e : Instr} (slot : e.slot = .event) : Effect s e { s with cmpStb := false }
  /-- An event below the target. -/
  | count (run : s.drive = .running) (below : s.cnt.toNat + 1 < s.divtgt.toNat) :
      Effect s .ovf { s with cnt := BitVec.ofNat 8 (s.cnt.toNat + 1), cmpStb := false }
  /-- An event at the target, no index above `N`. -/
  | tick (run : s.drive = .running) (target : s.divtgt.toNat ≤ s.cnt.toNat + 1) (pos : 0 < s.cfg.n)
      (le0 : s.idx.ph0 ≤ s.cfg.n) (le1 : s.idx.ph1 ≤ s.cfg.n) (le2 : s.idx.ph2 ≤ s.cfg.n) :
      Effect s .ovf { tickState s with cnt := 0, cmpStb := true }
  /-- A host operation that sets `RDATA` only: a read, a reserved access, an empty slot, a command in
  a drive state that ignores it. -/
  | rdataOnly {h : Instr} (slot : h.slot = .host) (b : Byte) : Effect s h { s with rdata := b }
  /-- `CMD.INIT` in Uninitialized. -/
  | init (uninit : s.drive = .uninitialized) : Effect s .cmdInit { stop s with rdata := 0 }
  /-- `CMD.ENABLE` in Disabled. -/
  | enable (dis : s.drive = .disabled) : Effect s .cmdEnable
      { s with drive := .running, cnt := 0, idx := initIdx s.cfg.n s.dir, rdata := 0 }
  /-- `CMD.DISABLE` in Running. -/
  | disable (run : s.drive = .running) : Effect s .cmdDisable { stop s with rdata := 0 }
  /-- `CMD.REVERSE` in Disabled. -/
  | reverse (dis : s.drive = .disabled) : Effect s .cmdReverse { swapDirection s with rdata := 0 }
  /-- `CMD.REVERSE` in Running. -/
  | stopReverse (run : s.drive = .running) :
      Effect s .cmdReverse { swapDirection (stop s) with rdata := 0 }
  /-- `WR.DIVTGT`. -/
  | target (d : Byte) : Effect s (.wrDivtgt d) { s with divtgt := d, rdata := 0 }
  /-- `WR.SCALEDL` of an entry that exists. -/
  | scaledLow {j : BitVec 5} (d : Byte) (lt : j.toNat < s.cfg.n) :
      Effect s (.wrScaledl j d) { s.setTbl (entryByte j.toNat false) d with rdata := 0 }
  /-- `WR.SCALEDH` of an entry that exists. -/
  | scaledHigh {j : BitVec 5} (d : Byte) (lt : j.toNat < s.cfg.n) :
      Effect s (.wrScaledh j d) { s.setTbl (entryByte j.toNat true) d with rdata := 0 }

/-- What `OVF` can do where it completes. -/
theorem effect_ovf {s t : State} (h : exec .ovf s = .next t) : Effect s .ovf t := by
  rcases exec_ovf_cases s with ⟨-, he⟩ | ⟨hr, hc, he⟩ | ⟨hr, hc, hn, h0, h1, h2, he⟩ | ⟨-, -, -, he⟩
  · cases he.symm.trans h; exact .noEvent rfl
  · cases he.symm.trans h; exact .count hr hc
  · cases he.symm.trans h; exact .tick hr hc hn h0 h1 h2
  · cases he.symm.trans h

theorem effect_cmdInit {s t : State} (h : exec .cmdInit s = .next t) : Effect s .cmdInit t := by
  by_cases hd : s.drive = .uninitialized
  · cases (exec_cmdInit_of_uninitialized hd).symm.trans h; exact .init hd
  · cases (exec_cmdInit_of_not_uninitialized hd).symm.trans h; exact .rdataOnly rfl 0

theorem effect_cmdEnable {s t : State} (h : exec .cmdEnable s = .next t) : Effect s .cmdEnable t := by
  by_cases hd : s.drive = .disabled
  · cases (exec_cmdEnable_of_disabled hd).symm.trans h; exact .enable hd
  · cases (exec_cmdEnable_of_not_disabled hd).symm.trans h; exact .rdataOnly rfl 0

theorem effect_cmdDisable {s t : State} (h : exec .cmdDisable s = .next t) : Effect s .cmdDisable t := by
  by_cases hd : s.drive = .running
  · cases (exec_cmdDisable_of_running hd).symm.trans h; exact .disable hd
  · cases (exec_cmdDisable_of_not_running hd).symm.trans h; exact .rdataOnly rfl 0

theorem effect_cmdReverse {s t : State} (h : exec .cmdReverse s = .next t) : Effect s .cmdReverse t := by
  cases hd : s.drive with
  | uninitialized =>
    cases (exec_cmdReverse_of_uninitialized hd).symm.trans h; exact .rdataOnly rfl 0
  | disabled => cases (exec_cmdReverse_of_disabled hd).symm.trans h; exact .reverse hd
  | running => cases (exec_cmdReverse_of_running hd).symm.trans h; exact .stopReverse hd

theorem effect_wrScaledl {s t : State} {j : BitVec 5} {d : Byte}
    (h : exec (.wrScaledl j d) s = .next t) :
    Effect s (.wrScaledl j d) t := by
  cases (exec_wrScaledl s j d).symm.trans h
  by_cases hj : j.toNat < s.cfg.n
  · rw [setScaledByte_of_lt _ _ hj]; exact .scaledLow d hj
  · rw [setScaledByte_of_le _ _ (by omega)]; exact .rdataOnly rfl 0

theorem effect_wrScaledh {s t : State} {j : BitVec 5} {d : Byte}
    (h : exec (.wrScaledh j d) s = .next t) :
    Effect s (.wrScaledh j d) t := by
  cases (exec_wrScaledh s j d).symm.trans h
  by_cases hj : j.toNat < s.cfg.n
  · rw [setScaledByte_of_lt _ _ hj]; exact .scaledHigh d hj
  · rw [setScaledByte_of_le _ _ (by omega)]; exact .rdataOnly rfl 0

/-- All an operation can do where it completes. -/
theorem effect_of_exec {s t : State} {i : Instr} (h : exec i s = .next t) : Effect s i t := by
  cases i with
  | rst => cases h; exact .reset
  | ovf => exact effect_ovf h
  | onop => cases h; exact .noEvent rfl
  | cmdInit => exact effect_cmdInit h
  | cmdEnable => exact effect_cmdEnable h
  | cmdDisable => exact effect_cmdDisable h
  | cmdReverse => exact effect_cmdReverse h
  | wrDivtgt d => cases h; exact .target d
  | wrScaledl j d => exact effect_wrScaledl h
  | wrScaledh j d => exact effect_wrScaledh h
  | _ => cases h; exact .rdataOnly rfl _

/-! ### Where an operation stops (44_phase_index_tracker.md R154) -/

/-- Every operation but `OVF` completes from every state. -/
theorem exec_completes_of_ne_ovf (s : State) {i : Instr} (hi : i ≠ .ovf) :
    ∃ t, exec i s = .next t := by
  cases i with
  | ovf => exact absurd rfl hi
  | cmdInit => exact ⟨_, exec_cmdInit s⟩
  | cmdEnable => exact ⟨_, exec_cmdEnable s⟩
  | cmdDisable => exact ⟨_, exec_cmdDisable s⟩
  | cmdReverse => exact ⟨_, exec_cmdReverse s⟩
  | _ => exact ⟨_, rfl⟩

/-- The one case with no meaning: `i` is an event that would tick with an index above `N`. -/
def TicksAboveN (i : Instr) (s : State) : Prop :=
  i = .ovf ∧ s.drive = .running ∧ s.divtgt.toNat ≤ s.cnt.toNat + 1 ∧
    (s.cfg.n < s.idx.ph0 ∨ s.cfg.n < s.idx.ph1 ∨ s.cfg.n < s.idx.ph2 ∨ s.cfg.n = 0)

/-- An operation completes, or it would tick above `N` and faults. -/
theorem exec_completes_or_faults (i : Instr) (s : State) :
    (¬TicksAboveN i s ∧ ∃ t, exec i s = .next t) ∨
      (TicksAboveN i s ∧ exec i s = .fault .indexAboveN) := by
  by_cases hi : i = .ovf
  · subst hi
    unfold TicksAboveN
    rcases exec_ovf_cases s with ⟨hr, he⟩ | ⟨-, hc, he⟩ | ⟨-, -, hn, h0, h1, h2, he⟩ | ⟨hr, hc, hb, he⟩
    · exact .inl ⟨fun ⟨_, hrun, _⟩ => hr hrun, _, he⟩
    · exact .inl ⟨fun ⟨_, _, hle, _⟩ => by omega, _, he⟩
    · exact .inl ⟨fun ⟨_, _, _, habove⟩ => by omega, _, he⟩
    · exact .inr ⟨⟨rfl, hr, hc, hb⟩, he⟩
  · exact .inl ⟨fun hbad => hi hbad.1, exec_completes_of_ne_ovf s hi⟩

/-- Settles O16: the two outcomes exclude each other. -/
theorem onlyATickAboveNStops : Obligations.OnlyATickAboveNStops := by
  intro i s
  change ((∃ t, exec i s = .next t) ↔ ¬TicksAboveN i s) ∧
    (TicksAboveN i s → exec i s = .fault .indexAboveN)
  rcases exec_completes_or_faults i s with ⟨hok, hnext⟩ | ⟨hbad, hfault⟩
  · exact ⟨iff_of_true hnext hok, fun hbad => absurd hbad hok⟩
  · refine ⟨iff_of_false (fun ⟨t, ht⟩ => ?_) (not_not_intro hbad), fun _ => hfault⟩
    cases hfault.symm.trans ht

/-! ### Which elements an operation writes (10_state.md R22) -/

/-- Settles O41: each effect names the fields it sets. -/
theorem onlyNamedOperationsWriteAnElement : Obligations.OnlyNamedOperationsWriteAnElement := by
  intro i s t h
  cases effect_of_exec h with
  | reset => simp
  | noEvent slot => simp [slot]
  | count => simp [Instr.slot]
  | tick => simp [Instr.slot]
  | rdataOnly slot b => simp [slot]
  | init => simp [Instr.slot]
  | enable => simp [Instr.slot]
  | disable => simp [Instr.slot]
  | reverse => simp [Instr.slot]
  | stopReverse => simp [Instr.slot]
  | target d => simp [Instr.slot]
  | scaledLow d => simp [Instr.slot]
  | scaledHigh d => simp [Instr.slot]

/-! ### The drive state (45_drive_state_machine.md R167) -/

/-- No event moves the drive state. -/
theorem event_drive {s t : State} {e : Instr} (slot : e.slot = .event) (h : exec e s = .next t) :
    t.drive = s.drive := by
  cases effect_of_exec h with
  | noEvent | count | tick => rfl
  | rdataOnly hslot => exact absurd (slot.symm.trans hslot) nofun
  | _ => cases slot

/-- All a host operation can do to the drive state: the moves of the transition table. -/
theorem host_drive_cases {s t : State} {i : Instr} (slot : i.slot = .host) (h : exec i s = .next t) :
    t.drive = s.drive ∨
      (i = .cmdInit ∧ s.drive = .uninitialized ∧ t.drive = .disabled) ∨
      (i = .cmdEnable ∧ s.drive = .disabled ∧ t.drive = .running) ∨
      ((i = .cmdDisable ∨ i = .cmdReverse) ∧ s.drive = .running ∧ t.drive = .disabled) := by
  cases effect_of_exec h with
  | reset | count | tick => cases slot
  | noEvent | rdataOnly | reverse | target | scaledLow | scaledHigh => exact .inl rfl
  | init huninit => exact .inr (.inl ⟨rfl, huninit, rfl⟩)
  | enable hdis => exact .inr (.inr (.inl ⟨rfl, hdis, rfl⟩))
  | disable hrun => exact .inr (.inr (.inr ⟨.inl rfl, hrun, rfl⟩))
  | stopReverse hrun => exact .inr (.inr (.inr ⟨.inr rfl, hrun, rfl⟩))

/-- The host operation of a word has its row's fixed bits in the word. -/
theorem and_rowMask_of_decodeHost {n : Nat} {w : Word} {i : Instr} (hrst : wordRst w = false)
    (h : decodeHost n w = i) : w &&& i.rowMask = i.rowMatch := by
  subst h
  exact eq_of_beq
    (matchesRow_of_and_eq (encode_decodeHost n hrst).symm (decodeHost_row n w).2)

/-- Settles O42: the event slot leaves the drive state, the host slot makes the moves of the table. -/
theorem driveStateFollowsTheTransitionTable : Obligations.DriveStateFollowsTheTransitionTable := by
  intro w s t h
  cases hrst : wordRst w with
  | true =>
    rw [runWord_of_rst s hrst] at h
    cases h
    have hbit : w.getLsbD 19 = true := hrst
    simp [hbit]
  | false =>
    obtain ⟨m, hevent, hhost⟩ := (runWord_eq_next_of_not_rst hrst).mp h
    obtain ⟨heslot, -⟩ := decodeEvent_row s.cfg.n w
    obtain ⟨hhslot, -⟩ := decodeHost_row s.cfg.n w
    rw [← event_drive heslot hevent]
    have hrow : ∀ i, decodeHost s.cfg.n w = i → w &&& i.rowMask = i.rowMatch :=
      fun i => and_rowMask_of_decodeHost hrst
    rcases host_drive_cases hhslot hhost with
      hsame | ⟨hi, hm, ht⟩ | ⟨hi, hm, ht⟩ | ⟨hi, hm, ht⟩
    · rw [hsame]
      simp +contextual
    · have hw : w &&& 0xBFFFF = 0x30001 := hrow _ hi
      rw [hm, ht]
      exact ⟨nofun, fun _ _ => ⟨rfl, hw⟩, nofun, nofun⟩
    · have hw : w &&& 0xBFFFF = 0x30002 := hrow _ hi
      rw [hm, ht]
      exact ⟨nofun, nofun, fun _ _ => ⟨rfl, hw⟩, nofun⟩
    · have hw : w &&& 0xBFFFF = 0x30003 ∨ w &&& 0xBFFFF = 0x30004 := hi.imp (hrow _) (hrow _)
      rw [hm, ht]
      exact ⟨nofun, nofun, nofun, fun _ _ => hw⟩

end Sys2Proof.Machine
end

section
/-! PROOFS. The invariants (10_state.md R40): a stopped or just started block has them, a tick keeps the
distances between the indices, and every other effect leaves what they speak of or moves `CNT` or one
table byte. So no run stops. -/

namespace Sys2Proof.Machine

/-! ### The initial indices (10_state.md R28) -/

theorem initIdx_lt {n : Nat} (hn : 0 < n) (d : Dir) :
    (initIdx n d).ph0 < n ∧ (initIdx n d).ph1 < n ∧ (initIdx n d).ph2 < n := by
  cases d <;> dsimp only [initIdx] <;> omega

/-- From three entries on the phases start apart. -/
theorem initIdx_distinct {n : Nat} (hn : 3 ≤ n) (d : Dir) :
    (initIdx n d).ph1 ≠ 0 ∧ (initIdx n d).ph2 ≠ 0 ∧ (initIdx n d).ph1 ≠ (initIdx n d).ph2 := by
  cases d <;> dsimp only [initIdx] <;> omega

/-- The initial indices have the initial offsets. -/
theorem offsetsOk_of_initIdx {s : State} (hn : 0 < s.cfg.n) (h : s.idx = initIdx s.cfg.n s.dir) :
    OffsetsOk s := by
  obtain ⟨-, h1, h2⟩ := initIdx_lt hn s.dir
  have h0 : (initIdx s.cfg.n s.dir).ph0 = 0 := by cases s.dir <;> rfl
  rw [OffsetsOk, h, h0]
  exact ⟨by rw [Nat.cast_zero, sub_zero]; exact Int.emod_eq_of_lt (by omega) (by omega),
    by rw [Nat.cast_zero, sub_zero]; exact Int.emod_eq_of_lt (by omega) (by omega)⟩

/-- Phases at their offsets have three different indices, so at most one of them is `N`. -/
theorem indices_ne_of_offsetsOk {s : State} (hn : 3 ≤ s.cfg.n) (h : OffsetsOk s) :
    s.idx.ph0 ≠ s.idx.ph1 ∧ s.idx.ph0 ≠ s.idx.ph2 ∧ s.idx.ph1 ≠ s.idx.ph2 := by
  obtain ⟨h1, h2⟩ := h
  obtain ⟨d1, d2, d12⟩ := initIdx_distinct hn s.dir
  refine ⟨fun he => d1 ?_, fun he => d2 ?_, fun he => d12 ?_⟩
  · rw [he, sub_self, Int.zero_emod] at h1
    exact_mod_cast h1.symm
  · rw [he, sub_self, Int.zero_emod] at h2
    exact_mod_cast h2.symm
  · rw [he, h2] at h1
    exact_mod_cast h1.symm

/-! ### States that meet the invariants -/

/-- The invariants speak of eight elements of the state. -/
theorem Inv.congr {s t : State} (h : Inv s) (hcfg : t.cfg = s.cfg) (hdrive : t.drive = s.drive)
    (hdir : t.dir = s.dir) (hcnt : t.cnt = s.cnt) (hidx : t.idx = s.idx) (hmem : t.mem = s.mem)
    (hrise : t.rise = s.rise) (hfall : t.fall = s.fall) : Inv t := by
  cases s
  cases t
  dsimp only at hcfg hdrive hdir hcnt hidx hmem hrise hfall
  subst hcfg hdrive hdir hcnt hidx hmem hrise hfall
  exact ⟨h.legal, h.dirForward, h.cntBound, h.cntZero, h.idxBound, h.oneAtN, h.offsets, h.stopped,
    h.pairs, h.memWf, h.memTable⟩

/-- A block at rest, or just started: `CNT` and the thresholds 0, the indices at their initial values. -/
theorem inv_of_initial {s : State} (legal : s.cfg.BlockLegal)
    (hdir : s.drive = .uninitialized → s.dir = .forward) (hcnt : s.cnt = 0)
    (hidx : s.idx = initIdx s.cfg.n s.dir) (hrise : s.rise = PerPhase.const 0)
    (hfall : s.fall = PerPhase.const 0) (hwf : Memory.wf s.mem = true)
    (htable : Memory.inTable s.cfg.n s.mem = true) : Inv s := by
  obtain ⟨⟨hn, -⟩, -⟩ := id legal
  have hoffsets := offsetsOk_of_initIdx (by omega) hidx
  obtain ⟨n01, n02, n12⟩ := indices_ne_of_offsetsOk hn hoffsets
  obtain ⟨l0, l1, l2⟩ := initIdx_lt (show 0 < s.cfg.n by omega) s.dir
  rw [← hidx] at l0 l1 l2
  exact {
    legal, offsets := hoffsets, memWf := hwf, memTable := htable, dirForward := hdir
    cntBound := by rw [hcnt]; decide
    cntZero := fun _ => hcnt
    idxBound := ⟨l0.le, l1.le, l2.le⟩
    oneAtN := ⟨by omega, by omega, by omega⟩
    stopped := fun _ => ⟨hidx, hrise, hfall⟩
    pairs := by rw [hrise, hfall]; exact ⟨.inl ⟨rfl, rfl⟩, .inl ⟨rfl, rfl⟩, .inl ⟨rfl, rfl⟩⟩ }

/-- The reset block, whatever its state was before, in a legal configuration. -/
theorem inv_resetBlock {s : State} (legal : s.cfg.BlockLegal) : Inv (resetBlock s) :=
  inv_of_initial legal (fun _ => rfl) rfl rfl rfl rfl rfl rfl

theorem inv_stop {s : State} (h : Inv s) : Inv (stop s) :=
  inv_of_initial h.legal nofun rfl rfl rfl rfl h.memWf h.memTable

/-- `CMD.ENABLE` starts from the thresholds 0 of Disabled. -/
theorem inv_enable {s : State} (h : Inv s) (hdis : s.drive = .disabled) :
    Inv { s with drive := .running, cnt := 0, idx := initIdx s.cfg.n s.dir } := by
  obtain ⟨-, hrise, hfall⟩ := h.stopped (by simp [hdis])
  exact inv_of_initial h.legal nofun rfl rfl hrise hfall h.memWf h.memTable

/-- The swap takes the initial indices of one direction to those of the other. -/
theorem inv_swapDirection {s : State} (h : Inv s) (hdis : s.drive = .disabled) :
    Inv (swapDirection s) := by
  have hnot : s.drive ≠ .running := by simp [hdis]
  obtain ⟨hidx, hrise, hfall⟩ := h.stopped hnot
  refine inv_of_initial h.legal ?_ (h.cntZero hnot) ?_ hrise hfall h.memWf h.memTable
  · rw [swapDirection_drive, hdis]
    exact nofun
  · rw [swapDirection_idx, hidx]
    exact initIdx_swap12 _ _

/-- A count stays below the target, which a byte holds. -/
theorem inv_count {s : State} (h : Inv s) (hrun : s.drive = .running)
    (hbelow : s.cnt.toNat + 1 < s.divtgt.toNat) :
    Inv { s with cnt := BitVec.ofNat 8 (s.cnt.toNat + 1) } := by
  have hlt := s.divtgt.isLt
  refine ⟨h.legal, h.dirForward, ?_, fun hnot => absurd hrun hnot, h.idxBound, h.oneAtN, h.offsets,
    h.stopped, h.pairs, h.memWf, h.memTable⟩
  rw [BitVec.toNat_ofNat, Nat.mod_eq_of_lt (by omega)]
  omega

theorem inv_setTbl {s : State} (h : Inv s) {j : Nat} (hj : j < 2 * s.cfg.n) (d : Byte) :
    Inv (s.setTbl j d) :=
  ⟨h.legal, h.dirForward, h.cntBound, h.cntZero, h.idxBound, h.oneAtN, h.offsets, h.stopped, h.pairs,
    Memory.wf_write _ d h.memWf, Memory.inTable_write d (Nat.le_add_right _ _)
      (Nat.add_lt_add_left hj _) h.memTable⟩

/-! ### The tick -/

/-- The lazy wrap keeps the index modulo `N`. -/
theorem wrapIndex_emod (n i : Nat) : ((wrapIndex n i : Nat) : Int) % n = (i : Int) % n := by
  unfold wrapIndex
  split
  · next h => simp [h]
  · rfl

/-- A tick moves two phases alike, so it keeps their distance modulo `N`. -/
theorem tick_offset (n i j : Nat) :
    (((wrapIndex n i + 1 : Nat) : Int) - (wrapIndex n j + 1 : Nat)) % n = ((i : Int) - j) % n := by
  have hshift : ((wrapIndex n i + 1 : Nat) : Int) - (wrapIndex n j + 1 : Nat) =
      (wrapIndex n i : Nat) - (wrapIndex n j : Nat) := by omega
  rw [hshift, Int.sub_emod, wrapIndex_emod, wrapIndex_emod, ← Int.sub_emod]

/-- The thresholds a tick writes are a legal pair (10_state.md R31). -/
theorem pairOk_deadTime {s : State} (hc : s.cfg.BlockLegal) (j : Nat) :
    PairOk s.cfg (trunc16 (deadTime s.cfg (s.sample j)).1) (trunc16 (deadTime s.cfg (s.sample j)).2) := by
  obtain ⟨-, hfall⟩ := thresholdsOf_deadTime_sample hc j
  have hv : s.sample j ≤ 32767 := (sext16_bounds (s.scaled j)).2
  obtain ⟨hstored, -⟩ := deadTime_stored_toNat hc hv
  obtain ⟨-, -, hsub, -⟩ := hc
  obtain ⟨-, -, hzero | hmin⟩ := deadTimeRising_bounds (s.sample j) hv hsub
  · exact .inr ⟨hfall, .inl (congrArg trunc16 hzero)⟩
  · exact .inr ⟨hfall, .inr (by exact_mod_cast hmin.trans_eq hstored.symm)⟩

theorem inv_tickState {s : State} (h : Inv s) (hrun : s.drive = .running) :
    Inv { tickState s with cnt := 0 } := by
  obtain ⟨⟨hn, -⟩, -⟩ := id h.legal
  have hpos : 0 < s.cfg.n := by omega
  obtain ⟨b0, b1, b2⟩ := h.idxBound
  have hle : ∀ i, i ≤ s.cfg.n → wrapIndex s.cfg.n i + 1 ≤ s.cfg.n := fun i => wrapIndex_lt hpos
  obtain ⟨o1, o2⟩ := h.offsets
  have hoffsets : OffsetsOk { tickState s with cnt := 0 } :=
    ⟨(tick_offset _ _ _).trans o1, (tick_offset _ _ _).trans o2⟩
  obtain ⟨n01, n02, n12⟩ :=
    indices_ne_of_offsetsOk (s := { tickState s with cnt := 0 }) hn hoffsets
  exact {
    legal := h.legal, offsets := hoffsets, memWf := h.memWf, memTable := h.memTable
    dirForward := h.dirForward
    cntBound := Nat.zero_le _
    cntZero := fun _ => rfl
    idxBound := ⟨hle _ b0, hle _ b1, hle _ b2⟩
    oneAtN := ⟨fun ⟨h0, h1⟩ => n01 (h0.trans h1.symm), fun ⟨h0, h2⟩ => n02 (h0.trans h2.symm),
      fun ⟨h1, h2⟩ => n12 (h1.trans h2.symm)⟩
    stopped := fun hnot => absurd hrun hnot
    pairs := ⟨pairOk_deadTime h.legal _, pairOk_deadTime h.legal _, pairOk_deadTime h.legal _⟩ }

/-! ### Operations, words and steps keep the invariants -/

/-- Every operation keeps the invariants. -/
theorem inv_of_exec {i : Instr} {s t : State} (h : Inv s) (hexec : exec i s = .next t) : Inv t := by
  cases effect_of_exec hexec with
  | reset => exact inv_resetBlock h.legal
  | noEvent => exact h.congr rfl rfl rfl rfl rfl rfl rfl rfl
  | count hrun hbelow => exact (inv_count h hrun hbelow).congr rfl rfl rfl rfl rfl rfl rfl rfl
  | tick hrun => exact (inv_tickState h hrun).congr rfl rfl rfl rfl rfl rfl rfl rfl
  | rdataOnly => exact h.congr rfl rfl rfl rfl rfl rfl rfl rfl
  | init => exact (inv_stop h).congr rfl rfl rfl rfl rfl rfl rfl rfl
  | enable hdis => exact (inv_enable h hdis).congr rfl rfl rfl rfl rfl rfl rfl rfl
  | disable => exact (inv_stop h).congr rfl rfl rfl rfl rfl rfl rfl rfl
  | reverse hdis => exact (inv_swapDirection h hdis).congr rfl rfl rfl rfl rfl rfl rfl rfl
  | stopReverse =>
    exact (inv_swapDirection (inv_stop h) rfl).congr rfl rfl rfl rfl rfl rfl rfl rfl
  | target d => exact h.congr rfl rfl rfl rfl rfl rfl rfl rfl
  | scaledLow d hlt =>
    exact (inv_setTbl h (by rw [entryByte_low]; omega) d).congr rfl rfl rfl rfl rfl rfl rfl rfl
  | scaledHigh d hlt =>
    exact (inv_setTbl h (by rw [entryByte_high]; omega) d).congr rfl rfl rfl rfl rfl rfl rfl rfl

/-- Under the invariants every operation completes: no index is above `N`. -/
theorem exec_completes_of_inv (i : Instr) {s : State} (h : Inv s) : ∃ t, exec i s = .next t := by
  rcases exec_completes_or_faults i s with ⟨-, hnext⟩ | ⟨⟨-, -, -, habove⟩, -⟩
  · exact hnext
  · obtain ⟨b0, b1, b2⟩ := h.idxBound
    obtain ⟨⟨hn, -⟩, -⟩ := h.legal
    omega

/-- Under the invariants every sequence of operations completes and keeps them. -/
theorem runOps_completes_of_inv (is : List Instr) {s : State} (h : Inv s) :
    ∃ t, runOps is s = .next t ∧ Inv t := by
  induction is generalizing s with
  | nil => exact ⟨s, rfl, h⟩
  | cons i is ih =>
    obtain ⟨m, hm⟩ := exec_completes_of_inv i h
    obtain ⟨t, ht, hinv⟩ := ih (inv_of_exec h hm)
    exact ⟨t, by rw [runOps_cons, hm, andThen_next, ht], hinv⟩

/-- The environment's words are no part of the invariants. -/
theorem inv_takeWord {s : State} (h : Inv s) : Inv (takeWord s) := by
  unfold takeWord
  split <;> exact h.congr rfl rfl rfl rfl rfl rfl rfl rfl

/-- Under the invariants a step completes and keeps them. -/
theorem step_completes_of_inv {s : State} (h : Inv s) : ∃ t, step s = .next t ∧ Inv t :=
  runOps_completes_of_inv _ (inv_takeWord h)

/-- Settles O45: the step completes at a state that has the invariants, the only one it answers. -/
theorem everyStepKeepsTheInvariants : Obligations.EveryStepKeepsTheInvariants := by
  intro s t h hstep
  obtain ⟨u, hu, hinv⟩ := step_completes_of_inv h
  cases hu.symm.trans hstep
  exact hinv

/-- A run of a machine is a step and then the rest of the run. -/
theorem run_succ_of_step {M : Host.Core} {s m : M.State} (k : Nat) (h : M.step s = .next m) :
    M.run (k + 1) s = M.run k m := by
  rw [Host.Core.run, h]

/-- From the invariants every number of steps completes. -/
theorem safe_of_inv {s : State} (h : Inv s) : Safe s := by
  intro k
  induction k generalizing s with
  | zero => exact ⟨s, rfl⟩
  | succ k ih =>
    obtain ⟨m, hm, hinv⟩ := step_completes_of_inv h
    obtain ⟨t, ht⟩ := ih hinv
    exact ⟨t, (run_succ_of_step (M := core) k hm).trans ht⟩

/-- Settles O46: words and steps are sequences of operations, and every step keeps the invariants. -/
theorem theBlockNeverStops : Obligations.TheBlockNeverStops := by
  intro s h
  refine ⟨fun w => ?_, ?_, safe_of_inv h⟩
  · obtain ⟨t, ht, -⟩ := runOps_completes_of_inv (decodeOps s.cfg.n w) h
    exact ⟨t, ht⟩
  · obtain ⟨t, ht, -⟩ := step_completes_of_inv h
    exact ⟨t, ht⟩

/-! ### Consequences -/

/-- Settles O44: the reset state is at rest, and the machine's configuration is legal. -/
theorem resetMeetsTheInvariants : Obligations.ResetMeetsTheInvariants :=
  inv_of_initial Config.machine_legal.1 (fun _ => rfl) rfl rfl rfl rfl rfl rfl

/-- Settles O43: of the six pairs of a drive state and a direction, the invariants leave out
Uninitialized in reverse. -/
theorem statusTakesFiveValues : Obligations.StatusTakesFiveValues := by
  intro s h
  have hdir := h.dirForward
  unfold State.statusByte State.irqEn State.tmrRun State.outOff
  cases hd : s.drive with
  | uninitialized => rw [hdir hd]; decide
  | disabled => cases s.dir <;> decide
  | running => cases s.dir <;> decide

end Sys2Proof.Machine
end

section
/-! PROOFS. Sequences of overflow events (42_overflow_divider.md R131, R134): below the target an event
counts, at the target it ticks, so from `CNT = 0` every `max(DIVTGT, 1)`-th event is a tick and the phases
walk the table (44_phase_index_tracker.md R152). -/

namespace Sys2Proof.Machine

/-! ### One event -/

/-- Below the target the event counts. -/
theorem exec_ovf_of_count {s : State} (hrun : s.drive = .running)
    (hbelow : s.cnt.toNat + 1 < s.divtgt.toNat) :
    exec .ovf s = .next { s with cnt := BitVec.ofNat 8 (s.cnt.toNat + 1), cmpStb := false } := by
  rcases exec_ovf_cases s with ⟨hstop, -⟩ | ⟨-, -, hcount⟩ | ⟨-, htarget, -⟩ | ⟨-, htarget, -⟩
  · exact absurd hrun hstop
  · exact hcount
  · omega
  · omega

/-- A count below the target fits the byte. -/
theorem count_toNat {k : Nat} {target : Byte} (h : k < target.toNat) : (BitVec.ofNat 8 k).toNat = k :=
  indexByte_toNat (by have := target.isLt; omega)

/-- Settles O14: the event counts, and the count fits. -/
theorem overflowBelowTheTargetCounts : Obligations.OverflowBelowTheTargetCounts :=
  fun _ hrun hbelow => ⟨_, exec_ovf_of_count hrun hbelow, rfl, count_toNat hbelow⟩

/-- The state with another reference table. -/
def withRef (s : State) (r : List Nat) : State := { s with cfg := { s.cfg with ref := r } }

/-- Settles O20: each outcome of the event is the same with another reference table. -/
theorem overflowDoesNotReadTheReference : Obligations.OverflowDoesNotReadTheReference := by
  intro s t r h
  change exec .ovf (withRef s r) = .next (withRef t r)
  rcases exec_ovf_cases s with ⟨hr, he⟩ | ⟨hr, hc, he⟩ | ⟨hr, hc, hn, h0, h1, h2, he⟩ | ⟨-, -, -, he⟩
  · cases he.symm.trans h
    exact overflowOutsideRunningIsLost (withRef s r) hr
  · cases he.symm.trans h
    exact exec_ovf_of_count (s := withRef s r) hr hc
  · cases he.symm.trans h
    exact exec_ovf_of_tick (s := withRef s r) hn hr hc h0 h1 h2
  · cases he.symm.trans h

/-- Settles O29: the new target decides between the tick and the count. -/
theorem retargetingTakesEffectAtTheNextEvent : Obligations.RetargetingTakesEffectAtTheNextEvent := by
  intro s d hlegal hrun h0 h1 h2
  obtain ⟨⟨hn, -⟩, -⟩ := hlegal
  have hops : runOps [.wrDivtgt d, .ovf] s = exec .ovf { s with divtgt := d, rdata := 0 } := by
    rw [runOps_cons, exec_wrDivtgt, andThen_next, runOps_cons, andThen_runOps_nil]
  rw [hops]
  by_cases hd : d.toNat ≤ s.cnt.toNat + 1
  · exact ⟨_, exec_ovf_of_tick (s := { s with divtgt := d, rdata := 0 }) (show 0 < s.cfg.n by omega)
      hrun hd h0 h1 h2, rfl, fun _ => ⟨rfl, rfl⟩, fun habove => absurd hd (not_le.mpr habove)⟩
  · exact ⟨_, exec_ovf_of_count (s := { s with divtgt := d, rdata := 0 }) hrun (not_le.mp hd), rfl,
      fun hle => absurd hle hd, fun habove => ⟨rfl, count_toNat habove, rfl⟩⟩

/-! ### The events up to the next tick (42_overflow_divider.md R134) -/

/-- Before the target only the count has moved. -/
theorem runOps_ovf_below {s : State} (hrun : s.drive = .running) (hcnt : s.cnt = 0x00) {k : Nat}
    (hk : 0 < k) (hbelow : k < max s.divtgt.toNat 1) :
    runOps (List.replicate k .ovf) s =
      .next { s with cnt := BitVec.ofNat 8 k, cmpStb := false } := by
  induction k, hk using Nat.le_induction with
  | base =>
    have hexec := exec_ovf_of_count hrun
      (by rw [hcnt]; exact (lt_max_iff.mp hbelow).resolve_right (by omega))
    rw [hcnt] at hexec
    rw [List.replicate_one, runOps_cons, hexec]
    rfl
  | succ k hk ih =>
    have hcount : (BitVec.ofNat 8 k).toNat = k := count_toNat (target := s.divtgt) (by omega)
    have hexec := exec_ovf_of_count (s := { s with cnt := BitVec.ofNat 8 k, cmpStb := false }) hrun
      (by dsimp only; omega)
    rw [List.replicate_succ', runOps_append, ih (by omega), andThen_next, runOps_cons, hexec]
    dsimp only
    rw [hcount]
    rfl

/-- The state a tick leaves, with its count and its strobe. -/
def tickedState (s : State) : State := { tickState s with cnt := 0x00, cmpStb := true }

/-- From `CNT = 0` the `max(DIVTGT, 1)`-th event is the tick. -/
theorem runOps_ovf_target {s : State} (hrun : s.drive = .running) (hcnt : s.cnt = 0x00)
    (hn : 0 < s.cfg.n) (h0 : s.idx.ph0 ≤ s.cfg.n) (h1 : s.idx.ph1 ≤ s.cfg.n)
    (h2 : s.idx.ph2 ≤ s.cfg.n) :
    runOps (List.replicate (max s.divtgt.toNat 1) .ovf) s = .next (tickedState s) := by
  by_cases ht : s.divtgt.toNat ≤ 1
  · have hexec := exec_ovf_of_tick hn hrun (by omega) h0 h1 h2
    rw [max_eq_right ht, List.replicate_one, runOps_cons, andThen_runOps_nil, hexec, tickedState]
  · obtain ⟨k, hk⟩ : ∃ k, max s.divtgt.toNat 1 = k + 1 := ⟨s.divtgt.toNat - 1, by omega⟩
    have hcount : (BitVec.ofNat 8 k).toNat = k := count_toNat (target := s.divtgt) (by omega)
    have hexec := exec_ovf_of_tick (s := { s with cnt := BitVec.ofNat 8 k, cmpStb := false })
      hn hrun (by dsimp only; omega) h0 h1 h2
    rw [hk, List.replicate_succ', runOps_append, runOps_ovf_below hrun hcnt (by omega) (by omega),
      andThen_next, runOps_cons, andThen_runOps_nil, hexec]
    rfl

/-- Settles O18: counts up to the target, then the tick. -/
theorem ticksAreSpacedByTheTarget : Obligations.TicksAreSpacedByTheTarget := by
  intro s hlegal hrun hcnt h0 h1 h2
  obtain ⟨⟨hn, -⟩, -⟩ := hlegal
  refine ⟨fun k hk hbelow => ⟨_, runOps_ovf_below hrun hcnt hk hbelow, rfl, ?_⟩,
    _, runOps_ovf_target hrun hcnt (by omega) h0 h1 h2, rfl, rfl, rfl⟩
  exact indexByte_toNat (by have := s.divtgt.isLt; omega)

/-! ### Many ticks (44_phase_index_tracker.md R152) -/

/-- The state after `k` ticks in a row. -/
def ticked (s : State) : Nat → State
  | 0 => s
  | k + 1 => tickedState (ticked s k)

/-- What ticks read and never write. -/
theorem ticked_reads (s : State) (k : Nat) :
    (ticked s k).cfg = s.cfg ∧ (ticked s k).drive = s.drive ∧ (ticked s k).divtgt = s.divtgt ∧
      (ticked s k).mem = s.mem := by
  induction k with
  | zero => exact ⟨rfl, rfl, rfl, rfl⟩
  | succ k ih => exact ih

/-- What ticks leave alone. -/
theorem ticked_frame (s : State) (k : Nat) : ticked s (k + 1) =
    { s with cnt := 0x00, cmpStb := true, idx := (ticked s (k + 1)).idx,
             rise := (ticked s (k + 1)).rise, fall := (ticked s (k + 1)).fall } := by
  induction k with
  | zero => rfl
  | succ k ih => rw [ticked, ih]; rfl

/-- The lazy wrap of an index one above an entry gives the next entry. -/
theorem wrapIndex_mod_succ {n : Nat} (hn : 0 < n) (i : Nat) :
    wrapIndex n (i % n + 1) = (i + 1) % n := by
  have hlt := Nat.mod_lt i hn
  rw [wrapIndex, ← Nat.mod_add_mod i n 1]
  split
  · next h => rw [h, Nat.mod_self]
  · next h => rw [Nat.mod_eq_of_lt (show i % n + 1 < n by omega)]

/-- The entries that tick `k`, counted from 0, reads. -/
theorem useIdx_ticked {s : State} (hn : 0 < s.cfg.n) (hidx : s.idx = initIdx s.cfg.n s.dir) (k : Nat) :
    useIdx (ticked s k) = (initIdx s.cfg.n s.dir).map fun i => (i + k) % s.cfg.n := by
  induction k with
  | zero =>
    have hfirst : ∀ i < s.cfg.n, wrapIndex s.cfg.n i = (i + 0) % s.cfg.n := fun i hi => by
      rw [wrapIndex, if_neg hi.ne, Nat.add_zero, Nat.mod_eq_of_lt hi]
    obtain ⟨l0, l1, l2⟩ := initIdx_lt hn s.dir
    rw [ticked, useIdx, hidx]
    simp only [PerPhase.map, hfirst _ l0, hfirst _ l1, hfirst _ l2]
  | succ k ih =>
    have hnext : useIdx (ticked s (k + 1)) =
        (useIdx (ticked s k)).map fun i => wrapIndex (ticked s k).cfg.n (i + 1) := rfl
    rw [hnext, ih, (ticked_reads s k).1]
    simp only [PerPhase.map, wrapIndex_mod_succ hn, Nat.add_assoc]

/-- From `CNT = 0` and the initial indices, every `max(DIVTGT, 1)` events are one tick. -/
theorem runOps_ovf_ticked {s : State} (hn : 0 < s.cfg.n) (hrun : s.drive = .running)
    (hcnt : s.cnt = 0x00) (hidx : s.idx = initIdx s.cfg.n s.dir) (k : Nat) :
    runOps (List.replicate (k * max s.divtgt.toNat 1) .ovf) s = .next (ticked s k) := by
  induction k with
  | zero => rw [Nat.zero_mul]; rfl
  | succ k ih =>
    obtain ⟨hcfg, hdrive, hdivtgt, -⟩ := ticked_reads s k
    have hzero : (ticked s k).cnt = 0x00 := by
      cases k with
      | zero => exact hcnt
      | succ k => rfl
    have huse := useIdx_ticked hn hidx k
    have hle : ∀ i j, wrapIndex s.cfg.n i = j % s.cfg.n → i ≤ s.cfg.n := fun i j h =>
      le_of_wrapIndex_lt (h.trans_lt (Nat.mod_lt j hn))
    simp only [useIdx, PerPhase.map, hcfg, PerPhase.mk.injEq] at huse
    obtain ⟨u0, u1, u2⟩ := huse
    have hnext := runOps_ovf_target (s := ticked s k) (hdrive.trans hrun) hzero (hcfg ▸ hn)
      (hcfg.symm ▸ hle _ _ u0) (hcfg.symm ▸ hle _ _ u1) (hcfg.symm ▸ hle _ _ u2)
    rw [hdivtgt] at hnext
    rw [Nat.succ_mul, List.replicate_add, runOps_append, ih, andThen_next, hnext]
    rfl

/-- What tick `k` writes in a phase that reads entry `j`: the thresholds of that entry, which no tick
before has changed. -/
theorem thresholdsOf_ticked {s : State} (hc : s.cfg.BlockLegal) (k j : Nat) :
    ThresholdsOf s j (trunc16 (deadTime (ticked s k).cfg ((ticked s k).sample j)).1)
      (trunc16 (deadTime (ticked s k).cfg ((ticked s k).sample j)).2) := by
  obtain ⟨hcfg, -, -, hmem⟩ := ticked_reads s k
  have hsample : (ticked s k).sample j = s.sample j := by
    simp only [State.sample, State.scaled, State.tbl, hmem]
  rw [hcfg, hsample]
  exact thresholdsOf_deadTime_sample hc j

/-- Settles O19: the events are `k + 1` ticks, and the last one reads entry `(INIT_IDX + k) mod N` in
each phase. -/
theorem phasesWalkTheTableInOrder : Obligations.PhasesWalkTheTableInOrder := by
  intro s hlegal hrun hcnt hidx k
  obtain ⟨⟨hn, -⟩, -⟩ := id hlegal
  have hpos : 0 < s.cfg.n := by omega
  have hidx' : (ticked s (k + 1)).idx = (useIdx (ticked s k)).map (· + 1) := rfl
  have hrise : (ticked s (k + 1)).rise = (useIdx (ticked s k)).map fun i =>
    trunc16 (deadTime (ticked s k).cfg ((ticked s k).sample i)).1 := rfl
  have hfall : (ticked s (k + 1)).fall = (useIdx (ticked s k)).map fun i =>
    trunc16 (deadTime (ticked s k).cfg ((ticked s k).sample i)).2 := rfl
  rw [useIdx_ticked hpos hidx k] at hidx' hrise hfall
  refine ⟨_, runOps_ovf_ticked hpos hrun hcnt hidx (k + 1), ticked_frame s k, ?_⟩
  rw [hidx', hrise, hfall]
  exact ⟨⟨rfl, thresholdsOf_ticked hlegal k _⟩, ⟨rfl, thresholdsOf_ticked hlegal k _⟩,
    ⟨rfl, thresholdsOf_ticked hlegal k _⟩⟩

end Sys2Proof.Machine
end

section
/-! PROOFS. Sequences of host operations: a reversal and an enable (45_drive_state_machine.md R164, R162),
operations done twice (20_memory.md R55 item 5), and the register map read back (10_state.md R35,
40_host_access.md R111). -/

namespace Sys2Proof.Machine

/-! ### A reversal and an enable -/

theorem Dir.flip_ne (d : Dir) : d.flip ≠ d := by
  cases d <;> exact nofun

@[simp] theorem swapDirection_swapDirection (s : State) : swapDirection (swapDirection s) = s := by
  rw [swapDirection, swapDirection_dir, Dir.flip_flip]
  rfl

/-- Settles O26: from Running the enable starts from the direction the reversal leaves; in Disabled the
swap and the toggle are their own inverses. -/
theorem reversalSurvivesTheNextEnable : Obligations.ReversalSurvivesTheNextEnable := by
  intro s
  refine ⟨fun hrun => ?_, fun hdis => ?_⟩
  · have henable := exec_cmdEnable_of_disabled
      (s := { swapDirection (stop s) with rdata := 0x00 }) rfl
    have hops : runOps [.cmdReverse, .cmdEnable] s = exec .cmdEnable
        { swapDirection (stop s) with rdata := 0x00 } := by
      rw [runOps_cons, exec_cmdReverse_of_running hrun, andThen_next, runOps_cons,
        andThen_runOps_nil]
    exact ⟨_, hops.trans henable, rfl, rfl, Dir.flip_ne s.dir, rfl, rfl, rfl, rfl⟩
  · have hsecond := exec_cmdReverse_of_disabled (s := { swapDirection s with rdata := 0x00 }) hdis
    rw [runOps_cons, exec_cmdReverse_of_disabled hdis, andThen_next, runOps_cons, hsecond,
      andThen_next, runOps_nil]
    exact congrArg (fun t : State => Host.Outcome.next { t with rdata := 0x00 })
      (swapDirection_swapDirection s)

/-! ### Operations done twice (20_memory.md R55 item 5) -/

/-- An operation is idempotent at `s` if it changes nothing more where it is done again. -/
theorem runOps_twice {s t : State} {i : Instr} (hfirst : exec i s = .next t)
    (hagain : exec i t = .next t) : ∃ t, runOps [i] s = .next t ∧ runOps [i, i] s = .next t :=
  ⟨t, by rw [runOps_cons, hfirst, andThen_next, runOps_nil],
    by rw [runOps_cons, hfirst, andThen_next, runOps_cons, hagain, andThen_next, runOps_nil]⟩

theorem cmdInit_twice (s : State) :
    ∃ t, runOps [.cmdInit] s = .next t ∧ runOps [.cmdInit, .cmdInit] s = .next t := by
  by_cases hd : s.drive = .uninitialized
  · exact runOps_twice (exec_cmdInit_of_uninitialized hd) (exec_cmdInit_of_not_uninitialized nofun)
  · exact runOps_twice (exec_cmdInit_of_not_uninitialized hd) (exec_cmdInit_of_not_uninitialized hd)

theorem cmdEnable_twice (s : State) :
    ∃ t, runOps [.cmdEnable] s = .next t ∧ runOps [.cmdEnable, .cmdEnable] s = .next t := by
  by_cases hd : s.drive = .disabled
  · exact runOps_twice (exec_cmdEnable_of_disabled hd) (exec_cmdEnable_of_not_disabled nofun)
  · exact runOps_twice (exec_cmdEnable_of_not_disabled hd) (exec_cmdEnable_of_not_disabled hd)

theorem cmdDisable_twice (s : State) :
    ∃ t, runOps [.cmdDisable] s = .next t ∧ runOps [.cmdDisable, .cmdDisable] s = .next t := by
  by_cases hd : s.drive = .running
  · exact runOps_twice (exec_cmdDisable_of_running hd) (exec_cmdDisable_of_not_running nofun)
  · exact runOps_twice (exec_cmdDisable_of_not_running hd) (exec_cmdDisable_of_not_running hd)

/-- Storing a byte of the table again stores nothing new. -/
theorem setTbl_twice {s : State} (hwf : Memory.wf s.mem = true) (j : Nat) (d b : Byte) :
    { State.setTbl { s.setTbl j d with rdata := b } j d with rdata := b } =
      { s.setTbl j d with rdata := b } :=
  congrArg (fun m => { s with mem := m, rdata := b }) (Memory.write_write_same (tblAddr j) d hwf)

/-- A write of a byte of an entry, done twice. -/
theorem setScaledByte_twice {s : State} {i : Instr} (hwf : Memory.wf s.mem = true) (j : BitVec 5)
    (high : Bool) (d : Byte)
    (hexec : ∀ t, exec i t = .next { setScaledByte t j high d with rdata := 0 }) :
    ∃ t, runOps [i] s = .next t ∧ runOps [i, i] s = .next t := by
  by_cases hj : j.toNat < s.cfg.n
  · have hstore : ∀ t : State, t.cfg = s.cfg →
        exec i t = .next { t.setTbl (entryByte j.toNat high) d with rdata := 0 } := fun t ht => by
      rw [hexec, setScaledByte_of_lt _ _ (ht ▸ hj)]
    have hagain := hstore { s.setTbl (entryByte j.toNat high) d with rdata := 0 } rfl
    rw [setTbl_twice hwf] at hagain
    exact runOps_twice (hstore s rfl) hagain
  · have hnothing : ∀ t : State, t.cfg = s.cfg → exec i t = .next { t with rdata := 0 } :=
      fun t ht => by rw [hexec, setScaledByte_of_le _ _ (by rw [ht]; omega)]
    exact runOps_twice (hnothing s rfl) (hnothing _ rfl)

/-- Settles O27: a command leaves a drive state that ignores it; a byte is stored as it already is. -/
theorem allButReverseAreIdempotent : Obligations.AllButReverseAreIdempotent := by
  intro s i hwf hi
  rcases hi with rfl | rfl | rfl | ⟨d, rfl⟩ | ⟨j, d, rfl⟩ | ⟨j, d, rfl⟩
  · exact cmdInit_twice s
  · exact cmdEnable_twice s
  · exact cmdDisable_twice s
  · exact runOps_twice (exec_wrDivtgt s d) (exec_wrDivtgt _ d)
  · exact setScaledByte_twice hwf j false d fun t => exec_wrScaledl t j d
  · exact setScaledByte_twice hwf j true d fun t => exec_wrScaledh t j d

/-! ### The register map (20_memory.md R52, 10_state.md R35) -/

/-- Settles O38: both directions of an access, over the register map. -/
theorem hostAccessesFollowTheRegisterMap : Obligations.HostAccessesFollowTheRegisterMap :=
  fun s a d => ⟨exec_decodeRead s a, exec_decodeWrite s a d⟩

/-- An address other than `DIVTGT`'s does not read it. -/
theorem memRead_divtgt_other (s : State) (d : Byte) {b : Byte} (hb : b ≠ 0x02) :
    memRead { s with divtgt := d } b = memRead s b := by
  have hne : b.toNat ≠ 0x02 := by bv_omega
  simp only [memRead, if_neg hne]
  rfl

/-- An address reads of memory the byte at that address only. -/
theorem memRead_mem_congr (s : State) {m : Memory} {b : Byte}
    (h : Memory.read m b.toNat = Memory.read s.mem b.toNat) :
    memRead { s with mem := m } b = memRead s b := by
  simp only [memRead, h]
  rfl

/-- Settles O39: the two kinds of writable address read what is stored there, and no other address
does. -/
theorem writableAddressesReadBack : Obligations.WritableAddressesReadBack := by
  intro s a d hwf h0
  refine ⟨fun hwritable => ?_, fun hnot => ?_⟩
  · rcases hwritable with rfl | hr
    · exact ⟨rfl, fun b hb => memRead_divtgt_other s d hb⟩
    · have hwrite : memWrite s a d = { s with mem := Memory.write s.mem a.toNat d } := by
        simp only [memWrite]
        rw [if_neg (by omega), if_neg (by omega), if_pos hr]
      rw [hwrite]
      refine ⟨?_, fun b hb => ?_⟩
      · rw [memRead_of_not_register (by omega) (by omega), if_pos hr]
        exact Memory.read_write_same _ d hwf
      · exact memRead_mem_congr s (Memory.read_write_other d (by bv_omega))
  · rw [not_or] at hnot
    exact memWrite_reserved d h0 hnot.1 (mt (window_index_iff a 0b01 s.cfg.n).mp hnot.2)

/-! ### A half-written entry (40_host_access.md R111, 70_reset_and_hazards.md R210) -/

/-- A write of the low byte of an entry that exists. -/
theorem exec_wrScaledl_of_lt {s : State} {i : BitVec 5} (d : Byte) (hi : i.toNat < s.cfg.n) :
    exec (.wrScaledl i d) s = .next { s.setTbl (entryByte i.toNat false) d with rdata := 0 } := by
  rw [exec_wrScaledl, setScaledByte_of_lt _ _ hi]

/-- A write of the high byte of an entry that exists. -/
theorem exec_wrScaledh_of_lt {s : State} {i : BitVec 5} (d : Byte) (hi : i.toNat < s.cfg.n) :
    exec (.wrScaledh i d) s = .next { s.setTbl (entryByte i.toNat true) d with rdata := 0 } := by
  rw [exec_wrScaledh, setScaledByte_of_lt _ _ hi]

/-- An entry after a write of its low byte. -/
theorem scaled_setTbl_low {s : State} (hwf : Memory.wf s.mem = true) (i : Nat) (d : Byte) :
    (s.setTbl (entryByte i false) d).scaled i = joinBytes (highByte (s.scaled i)) d := by
  rw [State.scaled, setTbl_tbl _ _ _ hwf, setTbl_tbl _ _ _ hwf, if_pos rfl, if_neg (by simp),
    State.scaled, highByte_joinBytes]

/-- An entry after a write of its high byte. -/
theorem scaled_setTbl_high {s : State} (hwf : Memory.wf s.mem = true) (i : Nat) (d : Byte) :
    (s.setTbl (entryByte i true) d).scaled i = joinBytes d (lowByte (s.scaled i)) := by
  rw [State.scaled, setTbl_tbl _ _ _ hwf, setTbl_tbl _ _ _ hwf, if_pos rfl, if_neg (by simp),
    State.scaled, lowByte_joinBytes]

/-- The low byte of a non-negative value is worth at most 255. -/
theorem joinBytes_toInt_near {v : Half} (hv : 0 ≤ v.toInt) (d : Byte) :
    0 ≤ (joinBytes (highByte v) d).toInt ∧ |(joinBytes (highByte v) d).toInt - v.toInt| ≤ 255 := by
  have hd := d.isLt
  have hlt := v.isLt
  have hjoin := joinBytes_toNat (highByte v) d
  rw [highByte_toNat] at hjoin
  rw [BitVec.toInt_eq_toNat_cond] at hv ⊢
  rw [BitVec.toInt_eq_toNat_cond]
  rw [abs_le]
  split_ifs at hv ⊢ <;> omega

/-- Settles O40: the first write replaces the low byte, the second the high byte. -/
theorem tornEntryIsOldHighByteNewLowByte : Obligations.TornEntryIsOldHighByteNewLowByte := by
  intro s i B hwf hi
  let t : State := { s.setTbl (entryByte i.toNat false) (lowByte B) with rdata := 0 }
  have htorn : t.scaled i.toNat = joinBytes (highByte (s.scaled i.toNat)) (lowByte B) :=
    scaled_setTbl_low hwf i.toNat (lowByte B)
  have hdone : (t.setTbl (entryByte i.toNat true) (highByte B)).scaled i.toNat = B := by
    rw [scaled_setTbl_high (s := t) (Memory.wf_write _ _ hwf), htorn, lowByte_joinBytes,
      joinBytes_high_low]
  refine ⟨t, _, exec_wrScaledl_of_lt _ hi, exec_wrScaledh_of_lt (s := t) _ hi, htorn, hdone,
    fun hA _ => ?_⟩
  rw [State.sample, htorn]
  exact joinBytes_toInt_near hA (lowByte B)

/-! ### The step, and the reset (30_encoding.md R70, 70_reset_and_hazards.md R200) -/

/-- Settles O7: each clause is an equation of the fetch or of the run of a word. -/
theorem stepRunsTheDecodedOperations : Obligations.StepRunsTheDecodedOperations := by
  intro s
  refine ⟨fun w ws hin => ?_, fun hin => ?_, fun _ _ => rfl, fun w i hops => ?_,
    fun w e h m hops hm => ?_, fun w e h x hops hx => ?_⟩
  · rw [step_eq, inputWord, takeWord, hin]
  · rw [step_eq, inputWord, takeWord, hin]
  · rw [runWord, hops, runOps_cons, andThen_runOps_nil]
  · rw [runWord, hops, runOps_cons, hm, andThen_next, runOps_cons, andThen_runOps_nil]
  · rw [runWord, hops, runOps_cons, hx, andThen_fault]

/-- Settles O10: the reset block, field by field; bit 19 alone decides for `RST`. -/
theorem rstGivesTheResetState : Obligations.RstGivesTheResetState := by
  intro s
  obtain ⟨htmr, hirq, hoff⟩ := statusOutputs_of_not_running (s := resetBlock s) nofun
  exact ⟨resetBlock s, exec_rst s, rfl, Memory.read_nil, htmr, hirq, hoff,
    fun w hrst => ⟨decodeOps_of_rst hrst, runWord_of_rst s hrst⟩⟩

/-- Settles O11: the machine's table length is 15, the block is Uninitialized. -/
theorem resetStateIsAsStated : Obligations.ResetStateIsAsStated := by
  obtain ⟨htmr, hirq, hoff⟩ := statusOutputs_of_not_running (s := State.reset) nofun
  have hstatus : State.reset.statusByte = 0x08 := by decide
  exact ⟨rfl, rfl, rfl, rfl, rfl, Memory.read_nil, rfl, rfl, hirq, htmr, hoff, hstatus, rfl, rfl, rfl⟩

/-! ### The output driver (43_pwm_output_driver.md R140 to R144) -/

/-- Settles O17: the bounds of the rising threshold, and its two branches. -/
theorem deadTimeStaysInRange : Obligations.DeadTimeStaysInRange := by
  intro c v hlegal _ hv
  obtain ⟨-, -, hsub, hadd, -⟩ := hlegal
  obtain ⟨hnonneg, hle, hmin⟩ := deadTimeRising_bounds v hv hsub
  have hcollapse : v - c.deadSub < c.minPulse → deadTime c v = (0, (c.deadAdd : Int)) := fun h => by
    rw [deadTime, deadTimeRising, if_pos h, zero_add]
  refine ⟨hmin.imp_right fun h => ⟨h, hle⟩, rfl, hnonneg, ?_, hcollapse, fun h => ?_, fun h => ?_⟩
  · change deadTimeRising c v + c.deadAdd ≤ 65535
    omega
  · exact if_neg (not_lt.mpr h)
  · exact hcollapse (by omega)

end Sys2Proof.Machine
end

section
/-! PROOFS. The host's arithmetic (41_waveform_scaling.md R112 to R117, 42_overflow_divider.md R130): the
clamps and the rounding are monotone, and in a legal configuration their results fit their fields. -/

namespace Sys2Proof.Machine

/-! ### Clamps and rounding -/

theorem clampNat_mono {v w : Nat} (lo hi : Nat) (h : v ≤ w) : clampNat v lo hi ≤ clampNat w lo hi :=
  min_le_min_right hi (max_le_max_right lo h)

theorem clampNat_bounds {lo hi : Nat} (v : Nat) (h : lo ≤ hi) :
    lo ≤ clampNat v lo hi ∧ clampNat v lo hi ≤ hi :=
  ⟨le_min (le_max_right v lo) h, min_le_right _ _⟩

theorem clampRat_mono {v w : Rat} (lo hi : Rat) (h : v ≤ w) : clampRat v lo hi ≤ clampRat w lo hi :=
  min_le_min_right hi (max_le_max_right lo h)

theorem clampRat_bounds {lo hi : Rat} (v : Rat) (h : lo ≤ hi) :
    lo ≤ clampRat v lo hi ∧ clampRat v lo hi ≤ hi :=
  ⟨le_min (le_max_right v lo) h, min_le_right _ _⟩

/-- `Round` is monotone on the non-negative rationals. -/
theorem roundAway_mono {p q : Rat} (hp : 0 ≤ p) (h : p ≤ q) : roundAway p ≤ roundAway q := by
  rw [roundAway_of_nonneg hp, roundAway_of_nonneg (hp.trans h)]
  have hhalf : p + 1 / 2 ≤ q + 1 / 2 := by linarith
  exact Int.floor_mono hhalf

/-- `Round` keeps a natural number. -/
theorem roundAway_natCast (n : Nat) : roundAway (n : Rat) = n := by
  rw [roundAway_eq_round n.cast_nonneg, round_natCast]

/-! ### The amplitude and the samples (41_waveform_scaling.md R112, R113, R117) -/

theorem clampedFreq_mono (c : Config) {f g : BitVec 16} (h : f.toNat ≤ g.toNat) :
    clampedFreq c f ≤ clampedFreq c g :=
  clampNat_mono _ _ h

theorem amplitude_bounds {c : Config} (h : c.Legal) (f : BitVec 16) :
    0 < amplitude c f ∧ amplitude c f ≤ c.maxAmp := by
  obtain ⟨-, ⟨-, -, -, ⟨hpos, hamp⟩, -⟩, -⟩ := h
  obtain ⟨hmin, hmax⟩ := clampRat_bounds (clampedFreq c f * c.vPerHz / c.busVoltage) hamp
  exact ⟨hpos.trans_le hmin, hmax⟩

theorem amplitude_mono {c : Config} {f g : BitVec 16} (h : c.Legal) (hfg : f.toNat ≤ g.toNat) :
    amplitude c f ≤ amplitude c g := by
  obtain ⟨-, ⟨-, -, -, -, hv, hbus⟩, -⟩ := h
  have hfreq : (clampedFreq c f : Rat) ≤ clampedFreq c g := by exact_mod_cast clampedFreq_mono c hfg
  exact clampRat_mono _ _
    (div_le_div_of_nonneg_right (mul_le_mul_of_nonneg_right hfreq hv.le) hbus.le)

/-- A sample before it is rounded is non-negative. -/
theorem refAt_mul_amplitude_nonneg {c : Config} (h : c.Legal) (f : BitVec 16) (i : Nat) :
    0 ≤ (c.refAt i : Rat) * amplitude c f :=
  mul_nonneg (Nat.cast_nonneg _) (amplitude_bounds h f).1.le

/-- Settles O48: clamps, the product with non-negative factors, and rounding are monotone. -/
theorem amplitudeIsMonotone : Obligations.AmplitudeIsMonotone := by
  intro c f g h hfg
  have hamp := amplitude_mono h hfg
  exact ⟨hamp, fun i _ => roundAway_mono (refAt_mul_amplitude_nonneg h f i)
    (mul_le_mul_of_nonneg_left hamp (Nat.cast_nonneg _))⟩

theorem scaledOf_nonneg {c : Config} (h : c.Legal) (f : BitVec 16) (i : Nat) : 0 ≤ scaledOf c f i := by
  have hmono := roundAway_mono le_rfl (refAt_mul_amplitude_nonneg h f i)
  rwa [roundAway_zero] at hmono

/-- At an amplitude of at most 1 a sample is at most the reference. -/
theorem scaledOf_le_refAt {c : Config} (h : c.Legal) (hmax : c.maxAmp = 1) (f : BitVec 16) (i : Nat) :
    scaledOf c f i ≤ c.refAt i := by
  have hle : (c.refAt i : Rat) * amplitude c f ≤ c.refAt i :=
    mul_le_of_le_one_right (Nat.cast_nonneg _) (hmax ▸ (amplitude_bounds h f).2)
  exact (roundAway_mono (refAt_mul_amplitude_nonneg h f i) hle).trans_eq (roundAway_natCast _)

theorem scaledOf_bounds {c : Config} (h : c.Legal) (hmax : c.maxAmp = 1) (f : BitVec 16) (i : Nat) :
    0 ≤ scaledOf c f i ∧ scaledOf c f i ≤ 32767 :=
  ⟨scaledOf_nonneg h f i,
    (scaledOf_le_refAt h hmax f i).trans (by exact_mod_cast refAt_le h.1 i)⟩

/-- Settles O50: the rounded product lies between 0 and the reference. -/
theorem scaledSamplesFitAndKeepTheReferenceAtFullAmplitude :
    Obligations.ScaledSamplesFitAndKeepTheReferenceAtFullAmplitude := by
  intro c f h hmax
  obtain ⟨hpos, hle⟩ := amplitude_bounds h f
  refine ⟨hpos, hmax ▸ hle, fun i _ => ?_⟩
  obtain ⟨hlow, hhigh⟩ := scaledOf_bounds h hmax f i
  refine ⟨rfl, hlow, hhigh, fun hzero => ?_, fun hfull => ?_⟩
  · rw [scaledOf, hzero, Nat.cast_zero, zero_mul, roundAway_zero]
  · rw [scaledOf, hfull, mul_one, roundAway_natCast]

/-! ### The divider target (42_overflow_divider.md R130) -/

theorem clampedFreq_bounds {c : Config} (h : c.Legal) (f : BitVec 16) :
    0 < clampedFreq c f ∧ c.minFreq ≤ clampedFreq c f ∧ clampedFreq c f ≤ c.maxFreq := by
  obtain ⟨-, ⟨⟨hpos, hle⟩, -⟩, -⟩ := h
  obtain ⟨hlow, hhigh⟩ := clampNat_bounds f.toNat hle
  exact ⟨hpos.trans_le hlow, hlow, hhigh⟩

/-- A legal `BASE_RATE` is positive: its quotient by `MAX_FREQ` is at least 1. -/
theorem baseRate_pos {c : Config} (h : c.Legal) : 0 < c.baseRate := by
  obtain ⟨-, ⟨⟨hpos, hle⟩, hfloor, -⟩, -⟩ := h
  have hmax : (0 : Rat) < c.maxFreq := by exact_mod_cast hpos.trans_le hle
  have hone : (1 : Rat) ≤ c.baseRate / c.maxFreq := by exact_mod_cast Int.le_floor.mp hfloor
  exact hmax.trans_le ((one_le_div hmax).mp hone)

/-- The floor of `BASE_RATE` over a frequency falls with the frequency. -/
theorem floor_baseRate_div_anti {c : Config} (h : c.Legal) {m n : Nat} (hm : 0 < m) (hmn : m ≤ n) :
    (c.baseRate / n).floor ≤ (c.baseRate / m).floor := by
  have hm' : (0 : Rat) < m := by exact_mod_cast hm
  have hmn' : (m : Rat) ≤ n := by exact_mod_cast hmn
  exact Int.floor_mono (div_le_div_of_nonneg_left (baseRate_pos h).le hm' hmn')

theorem divTgtOf_bounds {c : Config} (h : c.Legal) (f : BitVec 16) :
    1 ≤ divTgtOf c f ∧ divTgtOf c f ≤ 255 := by
  obtain ⟨hpos, hlow, hhigh⟩ := clampedFreq_bounds h f
  obtain ⟨-, ⟨⟨hmin, -⟩, hone, hbyte, -⟩, -⟩ := id h
  exact ⟨hone.trans (floor_baseRate_div_anti h hpos hhigh),
    (floor_baseRate_div_anti h hmin hlow).trans hbyte⟩

/-- Settles O51: the quotient falls with the clamped frequency, whose ends give the range. -/
theorem dividerTargetFitsAndFalls : Obligations.DividerTargetFitsAndFalls := by
  intro c f g h
  obtain ⟨hone, hbyte⟩ := divTgtOf_bounds h f
  obtain ⟨hpos, -, -⟩ := clampedFreq_bounds h f
  exact ⟨rfl, hone, hbyte,
    fun hfg => floor_baseRate_div_anti h hpos (clampedFreq_mono c hfg)⟩

end Sys2Proof.Machine
end

section
/-! PROOFS. `SETFREQ` (41_waveform_scaling.md R116): its words in their order, and what they leave, entry by
entry. -/

namespace Sys2Proof.Machine

/-! ### The words -/

theorem wrEntriesWords_length (v : Nat → Int) (is : List Nat) :
    (wrEntriesWords v is).length = 2 * is.length := by
  induction is with
  | nil => rfl
  | cons i is ih =>
    rw [wrEntriesWords, List.length_append, ih, List.length_cons, wrScaledWords]
    simp only [List.length_cons, List.length_nil]
    omega

/-- The two words of the `k`-th entry of the list. -/
theorem wrEntriesWords_getElem? (v : Nat → Int) {is : List Nat} {k i : Nat} (h : is[k]? = some i) :
    (wrEntriesWords v is)[2 * k]? =
        some (encode (.wrScaledl (BitVec.ofNat 5 i) (lowByte (trunc16 (v i))))) ∧
      (wrEntriesWords v is)[2 * k + 1]? =
        some (encode (.wrScaledh (BitVec.ofNat 5 i) (highByte (trunc16 (v i))))) := by
  induction is generalizing k with
  | nil => simp at h
  | cons j is ih =>
    cases k with
    | zero =>
      obtain rfl : j = i := by simpa using h
      exact ⟨rfl, rfl⟩
    | succ k => exact ih (by simpa using h)

/-! ### What a word of `SETFREQ` does -/

/-- The word of a write of the low byte of an entry that exists. -/
theorem runWord_wrScaledl {s : State} {i : BitVec 5} (d : Byte) (hi : i.toNat < s.cfg.n) :
    runWord (encode (.wrScaledl i d)) s =
      .next { s.setTbl (entryByte i.toNat false) d with rdata := 0, cmpStb := false } := by
  rw [runWord, (decodeOps_wrScaled d hi).1, runOps_cons, exec_onop, andThen_next, runOps_cons,
    andThen_runOps_nil]
  exact exec_wrScaledl_of_lt (s := { s with cmpStb := false }) d hi

/-- The word of a write of the high byte of an entry that exists. -/
theorem runWord_wrScaledh {s : State} {i : BitVec 5} (d : Byte) (hi : i.toNat < s.cfg.n) :
    runWord (encode (.wrScaledh i d)) s =
      .next { s.setTbl (entryByte i.toNat true) d with rdata := 0, cmpStb := false } := by
  rw [runWord, (decodeOps_wrScaled d hi).2, runOps_cons, exec_onop, andThen_next, runOps_cons,
    andThen_runOps_nil]
  exact exec_wrScaledh_of_lt (s := { s with cmpStb := false }) d hi

/-- The word of a write of the target. -/
theorem runWord_wrDivtgt (s : State) (d : Byte) :
    runWord (encode (.wrDivtgt d)) s = .next { s with divtgt := d, rdata := 0, cmpStb := false } := by
  rw [runWord, decodeOps_encode_host rfl rfl, runOps_cons, exec_onop, andThen_next, runOps_cons,
    andThen_runOps_nil, exec_wrDivtgt]

/-! ### The table, entry by entry -/

/-- Memory once entry `i` is written with `v`, low byte first. -/
def storeEntry (m : Memory) (i : Nat) (v : Half) : Memory :=
  Memory.write (Memory.write m (tblAddr (entryByte i false)) (lowByte v))
    (tblAddr (entryByte i true)) (highByte v)

/-- Memory once every entry of a list is written, in its order. -/
def storeEntries (v : Nat → Int) : List Nat → Memory → Memory
  | [], m => m
  | i :: is, m => storeEntries v is (storeEntry m i (trunc16 (v i)))

theorem wf_storeEntry {m : Memory} (i : Nat) (v : Half) (hm : Memory.wf m = true) :
    Memory.wf (storeEntry m i v) = true := Memory.wf_write _ _ (Memory.wf_write _ _ hm)

/-- The words of a list of entries, then of the target, run with no word between. -/
theorem runWords_entries_target {s : State} (hn : s.cfg.n ≤ 32) (v : Nat → Int) {is : List Nat}
    (his : ∀ i ∈ is, i < s.cfg.n) (d : Byte) :
    runWords (wrEntriesWords v is ++ [encode (.wrDivtgt d)]) s =
      .next { s with
        mem := storeEntries v is s.mem, divtgt := d, rdata := 0, cmpStb := false } := by
  induction is generalizing s with
  | nil =>
    rw [wrEntriesWords, List.nil_append, runWords_cons, runWord_wrDivtgt]
    rfl
  | cons i is ih =>
    obtain ⟨hi, his⟩ := List.forall_mem_cons.mp his
    have hfield : (BitVec.ofNat 5 i).toNat = i := by
      rw [BitVec.toNat_ofNat, Nat.mod_eq_of_lt (by omega)]
    have hi' : (BitVec.ofNat 5 i).toNat < s.cfg.n := hfield.symm ▸ hi
    rw [wrEntriesWords, wrScaledWords, List.append_assoc, List.cons_append, List.cons_append,
      List.nil_append, runWords_cons, runWord_wrScaledl _ hi', andThen_next, runWords_cons,
      runWord_wrScaledh (s := { s.setTbl _ _ with rdata := 0, cmpStb := false }) _ hi',
      andThen_next, hfield]
    exact ih (s := { s with
      mem := storeEntry s.mem i (trunc16 (v i)), rdata := 0, cmpStb := false }) hn his

/-- A byte of no entry of the list stays. -/
theorem read_storeEntries_other {v : Nat → Int} {is : List Nat} {m : Memory} {a : Nat}
    (ha : ∀ i ∈ is, ∀ high, a ≠ tblAddr (entryByte i high)) :
    Memory.read (storeEntries v is m) a = Memory.read m a := by
  induction is generalizing m with
  | nil => rfl
  | cons i is ih =>
    obtain ⟨hi, his⟩ := List.forall_mem_cons.mp ha
    rw [storeEntries, ih his, storeEntry, Memory.read_write_other _ (hi true),
      Memory.read_write_other _ (hi false)]

/-- Two bytes of the table at one address are the same byte of the same entry. -/
theorem tblAddr_entryByte_inj {i j : Nat} {b c : Bool}
    (h : tblAddr (entryByte i b) = tblAddr (entryByte j c)) : i = j ∧ b = c := by
  have hpos : entryByte i b = entryByte j c := Nat.add_left_cancel h
  obtain ⟨hi, hb⟩ := entryByte_div_mod i b
  obtain ⟨hj, hc⟩ := entryByte_div_mod j c
  rw [hpos] at hi hb
  exact ⟨hi.symm.trans hj, hb.symm.trans hc⟩

/-- The bytes of an entry just written. -/
theorem read_storeEntry_same {m : Memory} (hm : Memory.wf m = true) (i : Nat) (v : Half) (high : Bool) :
    Memory.read (storeEntry m i v) (tblAddr (entryByte i high)) = selectByte v high := by
  cases high with
  | true => exact Memory.read_write_same _ _ (Memory.wf_write _ _ hm)
  | false =>
    have hne : tblAddr (entryByte i false) ≠ tblAddr (entryByte i true) :=
      fun h => Bool.false_ne_true (tblAddr_entryByte_inj h).2
    exact (Memory.read_write_other _ hne).trans (Memory.read_write_same _ _ hm)

/-- The bytes of every entry of the list: the last write of an entry stores its value, as every write of
it does. -/
theorem read_storeEntries {v : Nat → Int} {is : List Nat} {m : Memory} (hm : Memory.wf m = true)
    {i : Nat} (hi : i ∈ is) (high : Bool) :
    Memory.read (storeEntries v is m) (tblAddr (entryByte i high)) =
      selectByte (trunc16 (v i)) high := by
  induction is generalizing m with
  | nil => exact absurd hi List.not_mem_nil
  | cons j is ih =>
    rw [storeEntries]
    by_cases hlater : i ∈ is
    · exact ih (wf_storeEntry j _ hm) hlater
    · obtain rfl : i = j := (List.mem_cons.mp hi).resolve_right hlater
      rw [read_storeEntries_other, read_storeEntry_same hm]
      exact fun k hk b h => hlater ((tblAddr_entryByte_inj h).1 ▸ hk)

/-! ### Numbers that fit their fields -/

/-- A 16-bit signed number is stored as it is. -/
theorem sext16_trunc16 {z : Int} (h0 : 0 ≤ z) (h1 : z ≤ 32767) : sext16 (trunc16 z) = z := by
  rw [sext16, trunc16, BitVec.toInt_ofInt]
  exact Int.bmod_eq_of_le (by omega) (by omega)

/-- A target in range is stored as it is. -/
theorem targetByte_toNat {z : Int} (h0 : 0 ≤ z) (h1 : z ≤ 255) : ((BitVec.ofInt 8 z).toNat : Int) = z := by
  rw [BitVec.toNat_ofInt]
  omega

/-- Settles O52: the words in their order; the table entry by entry, then the target, every value in the
range of its field. -/
theorem setFreqFillsTheTableAndTheTarget : Obligations.SetFreqFillsTheTableAndTheTarget := by
  intro s f hlegal hmax hwf
  obtain ⟨⟨-, hn⟩, -⟩ := id hlegal.1
  have hlen : (wrTableWords s.cfg.n (scaledOf s.cfg f)).length = 2 * s.cfg.n := by
    rw [wrTableWords, wrEntriesWords_length, List.length_range]
  refine ⟨?_, fun i v hi hv => ?_, fun d hd => ?_, ?_⟩
  · rw [setFreqWords, List.length_append, hlen, List.length_singleton]
  · obtain ⟨hlow, hhigh⟩ := wrEntriesWords_getElem? (scaledOf s.cfg f) (is := List.range s.cfg.n)
      (List.getElem?_range hi)
    have hvalue : trunc16 (scaledOf s.cfg f i.toNat) = v := by
      rw [← hv]
      exact BitVec.ofInt_toInt
    rw [hvalue, BitVec.ofNat_toNat, BitVec.setWidth_eq] at hlow hhigh
    rw [setFreqWords, List.getElem?_append_left (by omega), List.getElem?_append_left (by omega)]
    exact ⟨hlow, hhigh⟩
  · rw [setFreqWords, List.getElem?_append_right hlen.le, hlen, Nat.sub_self, ← hd,
      BitVec.ofInt_natCast, BitVec.ofNat_toNat, BitVec.setWidth_eq]
    rfl
  · obtain ⟨hone, hbyte⟩ := divTgtOf_bounds hlegal f
    refine ⟨_, runWords_entries_target hn _ (fun i hi => List.mem_range.mp hi) _, rfl, fun i hi => ?_,
      targetByte_toNat (by omega) hbyte, fun a ha => read_storeEntries_other fun i hi high => ?_⟩
    · obtain ⟨hlow, hhigh⟩ := scaledOf_bounds hlegal hmax f i
      have hread := read_storeEntries (v := scaledOf s.cfg f) hwf (List.mem_range.mpr hi)
      rw [State.sample, State.scaled, State.tbl, State.tbl, hread, hread]
      exact (congrArg sext16 (joinBytes_high_low _)).trans (sext16_trunc16 hlow hhigh)
    · have hin := entryByte_bounds i high
      have hlt := List.mem_range.mp hi
      rw [tblAddr]
      omega

end Sys2Proof.Machine
end
